-- ==== Sys2Proof/Word.lean ====
section
/-! DEFINITION. The word types of the ESS UART frame codec: bytes, 32-bit command and response words,
the 16-bit DATA field. Every value is unsigned (spec/00_scope.md R15). -/

namespace Sys2Proof

/-- One byte: an entry of a space, a wire byte, an A or D field (R76, R110). -/
abbrev Byte := BitVec 8

/-- A 32-bit command or response word, which crosses its port whole (R75, R110, R120). -/
abbrev Word := BitVec 32

/-- The DATA field of a response word (R120). -/
abbrev Data := BitVec 16

end Sys2Proof
end

