-- ==== Sys2Proof/Config.lean ====
section
/-! DEFINITION. What an implementation fixes (spec/00_scope.md section 5) and the free values the spec
leaves open (spec/93_implementation_defined.md U1, U7). -/

namespace Sys2Proof

/-- The four byte-array spaces (R70). -/
inductive Space where
  | fifo
  | rxpay
  | txpay
  | txw
  deriving DecidableEq, Repr

/-- `P_TRX_RX`: what the receive transport does with bytes that arrive while RXFE is detached (R155). -/
inductive TrxRx where
  | keep
  | lossy
  deriving DecidableEq, Repr, Inhabited

/-- The parameters of the hardware, fixed for its life (R243). -/
structure Params where
  /-- `P_CAP`, the FIFO capacity in bytes (R11). -/
  pCap : Nat
  /-- `P_RESYNC_REEXAMINE`: whether the byte that breaks a match may open a new frame (R14). -/
  resyncReexamine : Bool
  /-- `P_TRX_RX` (R155). -/
  trxRx : TrxRx
  deriving DecidableEq, Repr

/-- The byte a space's entry holds from a reset until it is written: drawn once per entry and reset, and
given by no rule (R290, U1). A free value: no body, so that nothing can be proved of it. Its first argument
counts the resets of the run (log 1, log 2); it names no instance of the block (log 22). -/
opaque Config.drawnByte : Nat → Space → Nat → Byte

/-- The value of the OPEN parameter `P_TRX_RX` in this hardware (R155, U7). A free value (log 3). -/
opaque Config.trxRx : TrxRx

/-- This hardware: capacity 500, the breaking byte discarded (00_scope.md section 5). -/
def Params.hardware : Params where
  pCap := 500
  resyncReexamine := false
  trxRx := Config.trxRx

end Sys2Proof
end

