-- ==== Sys2Proof/Syntax.lean ====
section
/-! DEFINITION. The operations of the block (spec/30_encoding.md R114), the two ports, and the listing
syntax of R130 and R131 as data. -/

namespace Sys2Proof

/-- The two command ports (R111): RX, driven by RXFE, and CMD, driven by CON. -/
inductive Port where
  | rx
  | cmd
  deriving DecidableEq, Repr

/-- The sixteen operations of R114 with their operands: `a` the A field, `d` or `n` the D field (R112). -/
inductive Instr where
  /-- R240. -/
  | nop
  /-- R141: write `d` into the ingress FIFO. -/
  | push (d : Byte)
  /-- R142: end an ingress burst. -/
  | detach
  /-- R143: remove the oldest FIFO byte. -/
  | pop
  /-- R144: attach the receive interrupt again. -/
  | rearm
  /-- R171: the payload length expected next. -/
  | setlen (n : Byte)
  /-- R176: one deframer step on `d`. -/
  | parse (d : Byte)
  /-- R177: one deframer step on the FIFO head. -/
  | parsef
  /-- R179: one ack-recognizer step on `d`. -/
  | pack (d : Byte)
  /-- R180: one ack-recognizer step on the FIFO head. -/
  | packf
  /-- R211: stage `d` at index `a`. -/
  | wrpay (a d : Byte)
  /-- R181: read the received payload at index `a`. -/
  | rdpay (a : Byte)
  /-- R212: compose the wire image of a frame of `n` payload bytes. -/
  | build (n : Byte)
  /-- R213: compose the wire image of an ack frame. -/
  | buildack
  /-- R214: one step of the byte pump. -/
  | txstep
  /-- R242: read the status register at address `a`. -/
  | rdreg (a : Byte)
  deriving DecidableEq, Repr

/-- The mnemonics of R114, one for each row. -/
inductive Mnemonic where
  | nop
  | push
  | detach
  | pop
  | rearm
  | setlen
  | parse
  | parsef
  | pack
  | packf
  | wrpay
  | rdpay
  | build
  | buildack
  | txstep
  | rdreg
  deriving DecidableEq, Repr

/-- The row of R114 an operation belongs to. -/
def Instr.mnemonic : Instr → Mnemonic
  | .nop => .nop
  | .push _ => .push
  | .detach => .detach
  | .pop => .pop
  | .rearm => .rearm
  | .setlen _ => .setlen
  | .parse _ => .parse
  | .parsef => .parsef
  | .pack _ => .pack
  | .packf => .packf
  | .wrpay _ _ => .wrpay
  | .rdpay _ => .rdpay
  | .build _ => .build
  | .buildack => .buildack
  | .txstep => .txstep
  | .rdreg _ => .rdreg

/-- An operand as a listing writes it (R130). -/
inductive Literal where
  | decimal (n : Nat)
  | hexadecimal (n : Nat)
  | character (c : Char)
  deriving DecidableEq, Repr

/-- What may stand in a listing line's mnemonic place: an operation, a pseudo-operation of R131, or `.word`. -/
inductive ListingName where
  | op (m : Mnemonic)
  | ldpay
  | rdstat
  | rdfill
  | expect
  | word
  deriving DecidableEq, Repr

/-- One listing line: `[port:] MNEMONIC [operand[, operand]]` (R130). -/
structure ListingLine where
  port : Option Port
  name : ListingName
  operands : List Literal
  deriving DecidableEq, Repr

end Sys2Proof
end

