-- ==== Sys2Proof/WellFormed.lean ====
section
/-! DEFINITION. When an operation, a parameter set and a staged byte run are well formed. The operands of
an operation are bytes, so every one of their values has an encoding (spec/30_encoding.md R112); what can be
wrong is the port (R111), the capacity (00_scope.md R11) and the extent of LDPAY (R131). -/

namespace Sys2Proof

/-- The port binding of R111 and R114: NOP on both ports, PUSH and DETACH on RX, every other on CMD. -/
def Instr.legalOn (p : Port) : Instr → Bool
  | .nop => true
  | .push _ => p == .rx
  | .detach => p == .rx
  | .pop => p == .cmd
  | .rearm => p == .cmd
  | .setlen _ => p == .cmd
  | .parse _ => p == .cmd
  | .parsef => p == .cmd
  | .pack _ => p == .cmd
  | .packf => p == .cmd
  | .wrpay _ _ => p == .cmd
  | .rdpay _ => p == .cmd
  | .build _ => p == .cmd
  | .buildack => p == .cmd
  | .txstep => p == .cmd
  | .rdreg _ => p == .cmd

/-- `1 <= P_CAP <= 65535` (R11). -/
abbrev Params.wf (c : Params) : Prop := 1 ≤ c.pCap ∧ c.pCap ≤ 65535

/-- The condition `a + k <= 254` of LDPAY for the bytes `b0 .. bk` (R131). -/
def ldpayFits (a : Byte) (bs : List Byte) : Bool :=
  match bs with
  | [] => false
  | _ :: rest => a.toNat + rest.length ≤ 254

end Sys2Proof
end

