-- ==== Sys2Proof/Decode.lean ====
section
/-! DEFINITION. Command words (spec/30_encoding.md R110 to R118): the fields of a word, the decoder, total
on every 32-bit word and both ports, the encoder, and the opcode map of R114 as a table. -/

namespace Sys2Proof

/-- The fields of a command word (R110). -/
structure Fields where
  /-- Bits 31:28. -/
  op : BitVec 4
  /-- Bit 27, the source select. -/
  s : BitVec 1
  /-- Bits 26:16, reserved. -/
  rsv : BitVec 11
  /-- Bits 15:8. -/
  a : Byte
  /-- Bits 7:0. -/
  d : Byte
  deriving DecidableEq, Repr

/-- The fields of a word (R110). -/
def fieldsOf (w : Word) : Fields where
  op := w.extractLsb' 28 4
  s := w.extractLsb' 27 1
  rsv := w.extractLsb' 16 11
  a := w.extractLsb' 8 8
  d := w.extractLsb' 0 8

/-- The word with the given fields (R110). -/
def wordOf (f : Fields) : Word := f.op ++ f.s ++ f.rsv ++ f.a ++ f.d

/-- Why a word is illegal on a port (R116 (a), (b), (c)). All three are answered alike (R241); which name a
word gets where two hold is the model's (log 17). -/
inductive DecodeError where
  /-- R116 (a): OP is 0xE or 0xF. -/
  | reservedOp (op : BitVec 4)
  /-- R116 (b): a field that R113 requires to be 0 is not. -/
  | unusedField (f : Fields)
  /-- R116 (c): a legal word on the wrong port. -/
  | wrongPort (i : Instr)
  deriving DecidableEq, Repr

/-- `i` where the fields it does not use are 0 (R113). -/
def whenUnusedZero (f : Fields) (unusedZero : Bool) (i : Instr) : Except DecodeError Instr :=
  if unusedZero then .ok i else .error (.unusedField f)

/-- The operation that the fields spell, on whichever port (R114): OP and S pick the row, the remaining bits
decide legal or illegal. -/
def decodeFields (f : Fields) : Except DecodeError Instr :=
  match f.op with
  | 0x0#4 => whenUnusedZero f (f.s == 0 && f.rsv == 0 && f.a == 0 && f.d == 0) .nop
  | 0x1#4 => whenUnusedZero f (f.s == 0 && f.rsv == 0 && f.a == 0) (.push f.d)
  | 0x2#4 => whenUnusedZero f (f.s == 0 && f.rsv == 0 && f.a == 0 && f.d == 0) .detach
  | 0x3#4 => whenUnusedZero f (f.s == 0 && f.rsv == 0 && f.a == 0 && f.d == 0) .pop
  | 0x4#4 => whenUnusedZero f (f.s == 0 && f.rsv == 0 && f.a == 0 && f.d == 0) .rearm
  | 0x5#4 => whenUnusedZero f (f.s == 0 && f.rsv == 0 && f.a == 0) (.setlen f.d)
  | 0x6#4 =>
    if f.s == 0 then whenUnusedZero f (f.rsv == 0 && f.a == 0) (.parse f.d)
    else whenUnusedZero f (f.rsv == 0 && f.a == 0 && f.d == 0) .parsef
  | 0x7#4 =>
    if f.s == 0 then whenUnusedZero f (f.rsv == 0 && f.a == 0) (.pack f.d)
    else whenUnusedZero f (f.rsv == 0 && f.a == 0 && f.d == 0) .packf
  | 0x8#4 => whenUnusedZero f (f.s == 0 && f.rsv == 0) (.wrpay f.a f.d)
  | 0x9#4 => whenUnusedZero f (f.s == 0 && f.rsv == 0 && f.d == 0) (.rdpay f.a)
  | 0xA#4 => whenUnusedZero f (f.s == 0 && f.rsv == 0 && f.a == 0) (.build f.d)
  | 0xB#4 => whenUnusedZero f (f.s == 0 && f.rsv == 0 && f.a == 0 && f.d == 0) .buildack
  | 0xC#4 => whenUnusedZero f (f.s == 0 && f.rsv == 0 && f.a == 0 && f.d == 0) .txstep
  | 0xD#4 => whenUnusedZero f (f.s == 0 && f.rsv == 0 && f.d == 0) (.rdreg f.a)
  | op => .error (.reservedOp op)

/-- Decoding, total on every word and both ports (R115, R116). An error is the ILLEGAL_WORD of R115. -/
def decode (p : Port) (w : Word) : Except DecodeError Instr :=
  match decodeFields (fieldsOf w) with
  | .ok i => if i.legalOn p then .ok i else .error (.wrongPort i)
  | .error e => .error e

/-- The fields of an operation's word, every field it does not use 0 (R113, R114). -/
def encodeFields : Instr → Fields
  | .nop => ⟨0x0, 0, 0, 0, 0⟩
  | .push d => ⟨0x1, 0, 0, 0, d⟩
  | .detach => ⟨0x2, 0, 0, 0, 0⟩
  | .pop => ⟨0x3, 0, 0, 0, 0⟩
  | .rearm => ⟨0x4, 0, 0, 0, 0⟩
  | .setlen n => ⟨0x5, 0, 0, 0, n⟩
  | .parse d => ⟨0x6, 0, 0, 0, d⟩
  | .parsef => ⟨0x6, 1, 0, 0, 0⟩
  | .pack d => ⟨0x7, 0, 0, 0, d⟩
  | .packf => ⟨0x7, 1, 0, 0, 0⟩
  | .wrpay a d => ⟨0x8, 0, 0, a, d⟩
  | .rdpay a => ⟨0x9, 0, 0, a, 0⟩
  | .build n => ⟨0xA, 0, 0, 0, n⟩
  | .buildack => ⟨0xB, 0, 0, 0, 0⟩
  | .txstep => ⟨0xC, 0, 0, 0, 0⟩
  | .rdreg a => ⟨0xD, 0, 0, a, 0⟩

/-- The command word of an operation (R114). -/
def encode (i : Instr) : Word := wordOf (encodeFields i)

/-- One row of the opcode map (R114). -/
structure OpcodeRow where
  mnemonic : Mnemonic
  pattern : Word
  mask : Word
  ports : List Port
  deriving DecidableEq, Repr

/-- The opcode map, row by row as R114 and spec/opcode_table.json give it. -/
def opcodeTable : List OpcodeRow := [
  ⟨.nop, 0x00000000, 0xFFFFFFFF, [.rx, .cmd]⟩,
  ⟨.push, 0x10000000, 0xFFFFFF00, [.rx]⟩,
  ⟨.detach, 0x20000000, 0xFFFFFFFF, [.rx]⟩,
  ⟨.pop, 0x30000000, 0xFFFFFFFF, [.cmd]⟩,
  ⟨.rearm, 0x40000000, 0xFFFFFFFF, [.cmd]⟩,
  ⟨.setlen, 0x50000000, 0xFFFFFF00, [.cmd]⟩,
  ⟨.parse, 0x60000000, 0xFFFFFF00, [.cmd]⟩,
  ⟨.parsef, 0x68000000, 0xFFFFFFFF, [.cmd]⟩,
  ⟨.pack, 0x70000000, 0xFFFFFF00, [.cmd]⟩,
  ⟨.packf, 0x78000000, 0xFFFFFFFF, [.cmd]⟩,
  ⟨.wrpay, 0x80000000, 0xFFFF0000, [.cmd]⟩,
  ⟨.rdpay, 0x90000000, 0xFFFF00FF, [.cmd]⟩,
  ⟨.build, 0xA0000000, 0xFFFFFF00, [.cmd]⟩,
  ⟨.buildack, 0xB0000000, 0xFFFFFFFF, [.cmd]⟩,
  ⟨.txstep, 0xC0000000, 0xFFFFFFFF, [.cmd]⟩,
  ⟨.rdreg, 0xD0000000, 0xFFFF00FF, [.cmd]⟩]

/-- A word spells a row when `(w AND mask) = match` (R114). -/
def OpcodeRow.matches (r : OpcodeRow) (w : Word) : Bool := w &&& r.mask == r.pattern

/-- The decode procedure of R115 over the table: the first row that matches on the port. -/
def decodeByTable (p : Port) (w : Word) : Option Mnemonic :=
  (opcodeTable.find? fun r => r.matches w && r.ports.contains p).map (·.mnemonic)

/-- The operation a word spells on the CMD port, or else on the RX port (log 18). -/
def decodeOnEitherPort (w : Word) : Option Instr :=
  match decode .cmd w with
  | .ok i => some i
  | .error _ =>
    match decode .rx w with
    | .ok i => some i
    | .error _ => none

/-- The instruction the decoder reads from the low `nbits` bits of `w`; a command word is one 32-bit word
(R118), so its bits at and above `nbits` are 0. -/
def decodeTableWord (nbits w : Nat) : Option Instr :=
  decodeOnEitherPort (BitVec.ofNat 32 (w % 2 ^ nbits))

end Sys2Proof
end

