-- ==== Sys2Proof/Machine/State.lean ====
section
/-! DEFINITION. The state of the block (spec/10_state.md), its configuration, the environment it runs in and
what it has answered, as plain data; the reasons a step can stop; the state after reset. -/

namespace Sys2Proof.Machine

/-- PST, the deframer state (R42). -/
inductive DeframerState where
  | awaitStart
  | collecting
  | awaitEnd1
  | awaitEnd2
  deriving DecidableEq, Repr

/-- AST, the ack-recognizer state (R46). The code 3, which the spec says is never reached, is no value. -/
inductive AckState where
  | aStart
  | aGotSm
  | aGotAk1
  deriving DecidableEq, Repr

/-- The result codes of R121. The reserved codes 0xB to 0xF, never returned, are no value. -/
inductive ResultCode where
  | ok
  | frame
  | ack
  | overflow
  | underflow
  | txNotReady
  | txDone
  | txIdle
  | busy
  | range
  | illegal
  deriving DecidableEq, Repr

/-- What the environment of the block does next. -/
inductive Event where
  /-- CON presents `w` on the CMD port (R7); `writable` is the transport's answer for this step (R8). -/
  | cmdWord (w : Word) (writable : Bool)
  /-- A test driver presents `w` on the RX port, outside RXFE's policy (R240; log 8). -/
  | rxWord (w : Word)
  /-- RXFE gets its turn: the step of R150, if one is enabled. -/
  | rxfeTurn
  /-- A byte arrives at the receive transport (R8); `lost` is the draw a lossy transport makes for a byte that
  arrives while RXFE is detached (R155). -/
  | arrive (b : Byte) (lost : Bool)
  /-- The reset input (R291). -/
  | reset
  deriving DecidableEq, Repr

/-- A byte array: the entries written since reset, by index. A list of cells with indices strictly rising; an
index that is not listed holds no written byte (log 19). -/
abbrev Memory := List Host.Cell

/-- The reasons a step stops with a fault. -/
inductive Fault where
  /-- Raised by `memRead` and `memWrite` for an index outside the space (R70). The spec calls the states in
  which this can happen unreachable (U15), and no state that meets the invariants of spec/10_state.md raises
  it. Safe (log 12). -/
  | outsideSpace (space : Space) (index : Nat)
  deriving DecidableEq, Repr

/-- The reasons a step is refused. -/
inductive Refusal where
  /-- Raised by an arm of `exec` for an operation that has no meaning yet; no arm does. Safe. -/
  | notModelled (mnemonic : String)
  deriving DecidableEq, Repr

/-- The state: the registers and arrays of spec/10_state.md, then the configuration, the environment and the
observation. -/
structure State where
  /-- FIFO (R32). -/
  fifo : Memory
  /-- RDIDX (R33), below `P_CAP`. -/
  rdIdx : Nat
  /-- WRIDX (R34), below `P_CAP`. -/
  wrIdx : Nat
  /-- FILL (R35), at most `P_CAP`. -/
  fill : Nat
  /-- ARMED (R38). -/
  armed : Bool
  /-- DPEND (R39). -/
  dpend : Bool
  /-- INB (R37). -/
  inb : Bool
  /-- LEN (R41). -/
  len : Byte
  /-- FLEN (R43). -/
  flen : Byte
  /-- PCOUNT (R44). -/
  pcount : Byte
  /-- PST (R42). -/
  pst : DeframerState
  /-- FV (R45). -/
  fv : Bool
  /-- RXPAY (R47). -/
  rxpay : Memory
  /-- AST (R46). -/
  ast : AckState
  /-- TXPAY (R48). -/
  txpay : Memory
  /-- TXW (R49). -/
  txw : Memory
  /-- TXLEN (R50). -/
  txLen : BitVec 9
  /-- TXCUR (R51). -/
  txCur : BitVec 9
  /-- TXACT (R52). -/
  txAct : Bool
  /-- The configuration, fixed for the life of the hardware (R243); CAP is `params.pCap` (R55). -/
  params : Params
  /-- The model's own: how many resets the run has seen, for the drawn bytes (log 2). -/
  drawEpoch : Nat
  /-- The port that issued the operation now performed (R120; log 10). -/
  port : Port
  /-- `tx_writable` for the step now taken (R8; log 5). -/
  txWritable : Bool
  /-- The bytes the receive transport holds, oldest first (R8). -/
  rxBytes : List Byte
  /-- What the environment does next, in order (R9; log 6). -/
  events : List Event
  /-- The response words returned so far, oldest first, each with its port (R10; log 9). -/
  responses : List (Port × Word)
  /-- The bytes handed to `put_byte` so far, oldest first (R10; log 9). -/
  emitted : List Byte
  deriving DecidableEq, Repr

/-- The state right after reset (R290): every register 0, no array entry written, nothing in the environment. -/
def State.reset : State where
  fifo := []
  rdIdx := 0
  wrIdx := 0
  fill := 0
  armed := false
  dpend := false
  inb := false
  len := 0
  flen := 0
  pcount := 0
  pst := .awaitStart
  fv := false
  rxpay := []
  ast := .aStart
  txpay := []
  txw := []
  txLen := 0
  txCur := 0
  txAct := false
  params := Params.hardware
  drawEpoch := 0
  port := .cmd
  txWritable := false
  rxBytes := []
  events := []
  responses := []
  emitted := []

end Sys2Proof.Machine
end

