-- ==== Sys2Proof/Machine/Ops.lean ====
section
/-! DEFINITION. The shared operations: the marker constants, the four byte spaces and their single-byte accesses
(spec/00_scope.md R17, spec/20_memory.md R70), the port primitives (R18), the receive-interrupt bits
(60_exceptions.md R266 to R268), the FIFO removal (40_ingress_fifo.md R145) and reset (70 R290). -/

namespace Sys2Proof.Machine

/-- SM, the start marker (R20). -/
def startMarker : Byte := 0x24
/-- EM1, the first end marker (R20). -/
def endMarker1 : Byte := 0x40
/-- EM2, the second end marker (R20). -/
def endMarker2 : Byte := 0x23
/-- AK1, the first ack byte (R20). -/
def ackByte1 : Byte := 0x2A
/-- AK2, the second ack byte (R20). -/
def ackByte2 : Byte := 0x25

/-- `clog2(n)`: the least `w >= 1` with `2^w >= n` (R12). -/
def clog2 (n : Nat) : Nat := if n ≤ 2 then 1 else (n - 1).log2 + 1

/-- `W_IDX`, the width of RDIDX and WRIDX (R12). -/
def widthIdx (c : Params) : Nat := clog2 c.pCap

/-- `W_FILL`, the width of FILL (R12). -/
def widthFill (c : Params) : Nat := clog2 (c.pCap + 1)

/-- The number of entries of a space (R70, R13). -/
def spaceSize (c : Params) : Space → Nat
  | .fifo => c.pCap
  | .rxpay => 255
  | .txpay => 255
  | .txw => 258

/-- The byte written at an index, if one was since reset. -/
def Memory.read? : Memory → Nat → Option Byte
  | [], _ => none
  | (a, x) :: m, i => if a = i then some x else Memory.read? m i

/-- Writing a byte at an index, the cells kept in rising order. -/
def Memory.write : Memory → Nat → Byte → Memory
  | [], i, v => [(i, v)]
  | (a, x) :: m, i, v =>
    if i < a then (i, v) :: (a, x) :: m
    else if i = a then (i, v) :: m
    else (a, x) :: Memory.write m i v

/-- The canonical form: indices strictly rising. What an unlisted index reads as is no written byte, so no cell
can repeat it (log 19). -/
abbrev Memory.wf (m : Memory) : Prop := m.Pairwise fun c d => c.1 < d.1

/-- The cells of a space. -/
def State.space (s : State) : Space → Memory
  | .fifo => s.fifo
  | .rxpay => s.rxpay
  | .txpay => s.txpay
  | .txw => s.txw

/-- The state with the cells of a space replaced. -/
def State.withSpace (s : State) (sp : Space) (m : Memory) : State :=
  match sp with
  | .fifo => { s with fifo := m }
  | .rxpay => { s with rxpay := m }
  | .txpay => { s with txpay := m }
  | .txw => { s with txw := m }

/-- The byte an entry holds: the last one written there since reset, else its drawn byte (R290, U1, U2). -/
def State.byteAt (s : State) (sp : Space) (i : Nat) : Byte :=
  ((s.space sp).read? i).getD (Config.drawnByte s.drawEpoch sp i)

/-- `MemRead(S, i, 1)` (R17). -/
def memRead (sp : Space) (i : Nat) (s : State) : Except Fault Byte :=
  if i < spaceSize s.params sp then .ok (s.byteAt sp i) else .error (.outsideSpace sp i)

/-- `MemWrite(S, i, 1, v)` (R17). -/
def memWrite (sp : Space) (i : Nat) (v : Byte) (s : State) : Except Fault State :=
  if i < spaceSize s.params sp then .ok (s.withSpace sp ((s.space sp).write i v))
  else .error (.outsideSpace sp i)

/-- The bytes at `i, i+1, ..` of a space, `n` of them, one MemRead each. -/
def memReadRun (sp : Space) (i : Nat) : Nat → State → Except Fault (List Byte)
  | 0, _ => .ok []
  | n + 1, s => do
    let b ← memRead sp i s
    let bs ← memReadRun sp (i + 1) n s
    return b :: bs

/-- One MemWrite for each byte of a list, at `i, i+1, ..`. -/
def memWriteRun (sp : Space) (i : Nat) : List Byte → State → Except Fault State
  | [], s => .ok s
  | b :: bs, s => do
    let s' ← memWrite sp i b s
    memWriteRun sp (i + 1) bs s'

/-- The 4-bit code of a result (R121). -/
def ResultCode.code : ResultCode → BitVec 4
  | .ok => 0x0
  | .frame => 0x1
  | .ack => 0x2
  | .overflow => 0x3
  | .underflow => 0x4
  | .txNotReady => 0x5
  | .txDone => 0x6
  | .txIdle => 0x7
  | .busy => 0x8
  | .range => 0x9
  | .illegal => 0xA

/-- The response word `{rc[3:0], 0[11:0], data[15:0]}` (R120). -/
def responseWord (rc : ResultCode) (data : Data) : Word := rc.code ++ 0#12 ++ data

/-- `respond(rc, data)`: one response word to the port that issued the operation (R18). -/
def respond (rc : ResultCode) (data : Data) (s : State) : State :=
  { s with responses := s.responses ++ [(s.port, responseWord rc data)] }

/-- `emit(b)`, the transport's `put_byte` (R18). -/
def emit (b : Byte) (s : State) : State := { s with emitted := s.emitted ++ [b] }

/-- The end of a meaning: its next state, or the fault of an access outside a space. -/
def finish : Except Fault State → Host.Outcome State Fault Refusal
  | .ok s => .next s
  | .error f => .fault f

/-- The next place of a FIFO index, modulo `P_CAP` (R33, R34). -/
def nextIdx (c : Params) (i : Nat) : Nat := (i + 1) % c.pCap

/-- Entry to the receive interrupt: the first PUSH of a burst sets INB, and that is all (R268, R141). The block
has no traps, so no other operation of this kind exists (R260). -/
def enterBurst (s : State) : State := if s.armed then { s with inb := true } else s

/-- The end of the receive interrupt handler: detached, the dispatch posted, no burst (R142, R268). -/
def endBurst (s : State) : State := { s with armed := false, dpend := true, inb := false }

/-- The return of the deferred dispatch: the interrupt attached again (R144, R268). -/
def rearmIngress (s : State) : State := { s with armed := true, dpend := false }

/-- `dispatch_req`, the level output to the consumer (R267). -/
def State.dispatchReq (s : State) : Bool := s.dpend

/-- The source's `write` on a FIFO that is not full: store, advance WRIDX, count (R141). -/
def fifoStore (d : Byte) (s : State) : Except Fault State := do
  let s' ← memWrite .fifo s.wrIdx d s
  return { s' with wrIdx := nextIdx s.params s.wrIdx, fill := s.fill + 1 }

/-- `fifo_take()`: the oldest byte and the state without it, or nothing where the FIFO is empty (R145, R143). -/
def fifoTake (s : State) : Except Fault (Option (Byte × State)) :=
  if s.fill = 0 then .ok none
  else do
    let b ← memRead .fifo s.rdIdx s
    return some (b, { s with rdIdx := nextIdx s.params s.rdIdx, fill := s.fill - 1 })

/-- Reset (R290, R291): every register at its reset value, every array unwritten with bytes drawn anew. The
parameters, the transport, what the environment does next and what was already answered or sent stay (R292;
log 15). -/
def resetBlock (s : State) : State :=
  { State.reset with
    params := s.params
    drawEpoch := s.drawEpoch + 1
    port := s.port
    txWritable := s.txWritable
    rxBytes := s.rxBytes
    events := s.events
    responses := s.responses
    emitted := s.emitted }

end Sys2Proof.Machine
end

