-- ==== Sys2Proof/Machine/Operands.lean ====
section
/-! DEFINITION. The operand forms (spec/30_encoding.md R110, R112): the byte of the PARSE and PACK groups, which
S selects, and the index of RDPAY and WRPAY. D and A are unsigned and used as they stand. -/

namespace Sys2Proof.Machine

/-- Where the PARSE and PACK groups take their byte: the S bit of R110. -/
inductive ByteSource where
  /-- S = 0: the D field. -/
  | immediate (d : Byte)
  /-- S = 1: the FIFO head, which is removed. -/
  | fifoHead
  deriving DecidableEq, Repr

/-- The byte and the state after it is taken, or nothing on an empty FIFO (R176, R177, R179, R180). -/
def takeByte : ByteSource → State → Except Fault (Option (Byte × State))
  | .immediate d, s => .ok (some (d, s))
  | .fifoHead, s => fifoTake s

/-- The entry a payload index names, or nothing for 255, which is outside both buffers (R71). -/
def payloadIndex (a : Byte) : Option Nat := if a = 255 then none else some a.toNat

/-- `zext_16` of a byte (R112, R122). -/
def byteData (b : Byte) : Data := b.setWidth 16

end Sys2Proof.Machine
end

