-- ==== Sys2Proof/Machine/Ack.lean ====
section
/-! DEFINITION. The ack-recognizer family (spec/41_deframer.md R178 to R180): PACK, PACKF. -/

namespace Sys2Proof.Machine

/-- `aresync(b)` (R178). -/
def ackResync (b : Byte) (s : State) : State :=
  if s.params.resyncReexamine ∧ b = startMarker then { s with ast := .aGotSm } else { s with ast := .aStart }

/-- `astep(b)` (R178): one ack-recognizer step and its result code. -/
def astep (b : Byte) (s : State) : ResultCode × State :=
  match s.ast with
  | .aStart => (.ok, if b = startMarker then { s with ast := .aGotSm } else s)
  | .aGotSm => (.ok, if b = ackByte1 then { s with ast := .aGotAk1 } else ackResync b s)
  | .aGotAk1 => if b = ackByte2 then (.ack, { s with ast := .aStart }) else (.ok, ackResync b s)

/-- PACK and PACKF (R179, R180): one ack-recognizer step on the byte of either source. -/
def packFrom (src : ByteSource) (s : State) : Host.Outcome State Fault Refusal :=
  finish do
    match ← takeByte src s with
    | none => return respond .underflow 0 s
    | some (b, s') => return respond (astep b s').1 (byteData b) (astep b s').2

/-- PACK (R179). -/
def execPack (d : Byte) (s : State) : Host.Outcome State Fault Refusal :=
  packFrom (.immediate d) s

/-- PACKF (R180). -/
def execPackf (s : State) : Host.Outcome State Fault Refusal :=
  packFrom .fifoHead s

end Sys2Proof.Machine
end

