-- ==== Sys2Proof/Machine/Flags.lean ====
section
/-! DEFINITION. The status views (spec/10_state.md R53 to R55), the codes of the state registers, and the
register map of RDREG (spec/43_control.md R242). No operation computes a condition code (R56). -/

namespace Sys2Proof.Machine

/-- The code of PST (R42). -/
def DeframerState.code : DeframerState → BitVec 2
  | .awaitStart => 0
  | .collecting => 1
  | .awaitEnd1 => 2
  | .awaitEnd2 => 3

/-- The code of AST (R46). -/
def AckState.code : AckState → BitVec 2
  | .aStart => 0
  | .aGotSm => 1
  | .aGotAk1 => 2

/-- STATUS: `{0[10:0], INB, TXACT, FV, DPEND, ARMED}` (R53). -/
def statusView (s : State) : Data :=
  0#11 ++ BitVec.ofBool s.inb ++ BitVec.ofBool s.txAct ++ BitVec.ofBool s.fv ++ BitVec.ofBool s.dpend
    ++ BitVec.ofBool s.armed

/-- PSTATE: `{0[11:0], AST[1:0], PST[1:0]}` (R54). -/
def pstateView (s : State) : Data := 0#12 ++ s.ast.code ++ s.pst.code

/-- The register at an RDREG address, zero-extended, or nothing for an unassigned one (R242). -/
def registerValue (a : Byte) (s : State) : Option Data :=
  match a.toNat with
  | 0x00 => some (statusView s)
  | 0x01 => some (pstateView s)
  | 0x02 => some (BitVec.ofNat 16 s.fill)
  | 0x03 => some (BitVec.ofNat 16 s.rdIdx)
  | 0x04 => some (BitVec.ofNat 16 s.wrIdx)
  | 0x05 => some (s.len.setWidth 16)
  | 0x06 => some (s.flen.setWidth 16)
  | 0x07 => some (s.pcount.setWidth 16)
  | 0x08 => some (s.txLen.setWidth 16)
  | 0x09 => some (s.txCur.setWidth 16)
  | 0x0A => some (BitVec.ofNat 16 s.params.pCap)
  | _ => none

end Sys2Proof.Machine
end

