-- ==== Sys2Proof/Machine/Control.lean ====
section
/-! DEFINITION. The control family (spec/43_control.md): NOP, RDREG, and the action of an illegal word. -/

namespace Sys2Proof.Machine

/-- NOP (R240). -/
def execNop (s : State) : Host.Outcome State Fault Refusal :=
  .next (respond .ok 0 s)

/-- RDREG (R242). -/
def execRdreg (a : Byte) (s : State) : Host.Outcome State Fault Refusal :=
  match registerValue a s with
  | none => .next (respond .range 0 s)
  | some v => .next (respond .ok v s)

/-- ILLEGAL_WORD (R241): an answer and nothing else. -/
def illegalWord (s : State) : Host.Outcome State Fault Refusal :=
  .next (respond .illegal 0 s)

end Sys2Proof.Machine
end

