-- ==== Sys2Proof/Machine/Deframer.lean ====
section
/-! DEFINITION. The deframer family (spec/41_deframer.md): SETLEN, PARSE, PARSEF, RDPAY. -/

namespace Sys2Proof.Machine

/-- `start_frame()` (R172): the length latched, no byte collected, the delivered payload no longer valid. A frame
of no payload goes straight to its end markers. -/
def startFrame (s : State) : State :=
  { s with
    flen := s.len
    pcount := 0
    fv := false
    pst := if s.len = 0 then .awaitEnd1 else .collecting }

/-- `resync(b)` (R175): the candidate frame is discarded; with P_RESYNC_REEXAMINE = 1 a start marker opens the
next one. -/
def resync (b : Byte) (s : State) : State :=
  if s.params.resyncReexamine ∧ b = startMarker then startFrame s else { s with pst := .awaitStart }

/-- COLLECTING's row of R173: the byte, of any value, is stored at PCOUNT. -/
def collectByte (b : Byte) (s : State) : Except Fault State := do
  let s' ← memWrite .rxpay s.pcount.toNat b s
  return { s' with
    pcount := s.pcount + 1
    pst := if s.pcount + 1 = s.flen then .awaitEnd1 else s.pst }

/-- `dstep(b)` (R173, the table of R170): one deframer step and its result code. -/
def dstep (b : Byte) (s : State) : Except Fault (ResultCode × State) :=
  match s.pst with
  | .awaitStart => .ok (.ok, if b = startMarker then startFrame s else s)
  | .collecting => do
    let s' ← collectByte b s
    return (.ok, s')
  | .awaitEnd1 => .ok (.ok, if b = endMarker1 then { s with pst := .awaitEnd2 } else resync b s)
  | .awaitEnd2 =>
    if b = endMarker2 then .ok (.frame, { s with pst := .awaitStart, fv := true })
    else .ok (.ok, resync b s)

/-- DATA of a deframer step (R122): `{FLEN, byte}` for FRAME, the byte otherwise. -/
def deframerData (rc : ResultCode) (flen b : Byte) : Data :=
  match rc with
  | .frame => flen ++ b
  | _ => byteData b

/-- PARSE and PARSEF (R176, R177): one deframer step on the byte of either source; on an empty FIFO UNDERFLOW
and nothing else. -/
def parseFrom (src : ByteSource) (s : State) : Host.Outcome State Fault Refusal :=
  finish do
    match ← takeByte src s with
    | none => return respond .underflow 0 s
    | some (b, s') =>
      let (rc, s'') ← dstep b s'
      return respond rc (deframerData rc s''.flen b) s''

/-- SETLEN (R171). -/
def execSetlen (n : Byte) (s : State) : Host.Outcome State Fault Refusal :=
  .next (respond .ok 0 { s with len := n })

/-- PARSE (R176). -/
def execParse (d : Byte) (s : State) : Host.Outcome State Fault Refusal :=
  parseFrom (.immediate d) s

/-- PARSEF (R177). -/
def execParsef (s : State) : Host.Outcome State Fault Refusal :=
  parseFrom .fifoHead s

/-- RDPAY (R181): any index below 255 at any time, whatever FV and FLEN say. -/
def execRdpay (a : Byte) (s : State) : Host.Outcome State Fault Refusal :=
  match payloadIndex a with
  | none => .next (respond .range 0 s)
  | some i => finish do
    let b ← memRead .rxpay i s
    return respond .ok (byteData b) s

end Sys2Proof.Machine
end

