-- ==== Sys2Proof/Machine/Framer.lean ====
section
/-! DEFINITION. The framer and byte-pump family (spec/42_framer_tx.md): WRPAY, BUILD, BUILDACK, TXSTEP. -/

namespace Sys2Proof.Machine

/-- The wire form of a frame with the given payload (R100). -/
def frameBytes (payload : List Byte) : List Byte := startMarker :: payload ++ [endMarker1, endMarker2]

/-- The wire form of the ack frame (R101). -/
def ackBytes : List Byte := [startMarker, ackByte1, ackByte2]

/-- A wire image into TXW from index 0, the transmitter made active at its first byte (R212, R213). -/
def loadImage (image : List Byte) (s : State) : Except Fault State := do
  let s' ← memWriteRun .txw 0 image s
  return { s' with txLen := BitVec.ofNat 9 image.length, txCur := 0, txAct := true }

/-- WRPAY (R211), allowed while a transmission is active. -/
def execWrpay (a d : Byte) (s : State) : Host.Outcome State Fault Refusal :=
  match payloadIndex a with
  | none => .next (respond .range 0 s)
  | some i => finish do
    let s' ← memWrite .txpay i d s
    return respond .ok 0 s'

/-- BUILD (R212): BUSY while a transmission is active, else the frame of TXPAY[0 .. n-1]. -/
def execBuild (n : Byte) (s : State) : Host.Outcome State Fault Refusal :=
  if s.txAct then .next (respond .busy 0 s)
  else finish do
    let payload ← memReadRun .txpay 0 n.toNat s
    let s' ← loadImage (frameBytes payload) s
    return respond .ok 0 s'

/-- BUILDACK (R213). -/
def execBuildack (s : State) : Host.Outcome State Fault Refusal :=
  if s.txAct then .next (respond .busy 0 s)
  else finish do
    let s' ← loadImage ackBytes s
    return respond .ok 0 s'

/-- The cursor after a sent byte (R214): TX_DONE and the transmitter idle after the last byte, else the next
index. -/
def advancePump (s : State) : ResultCode × State :=
  if s.txCur + 1 = s.txLen then (.txDone, { s with txCur := 0, txAct := false })
  else (.ok, { s with txCur := s.txCur + 1 })

/-- TXSTEP (R214): nothing to send, transport not ready, or one byte sent. -/
def execTxstep (s : State) : Host.Outcome State Fault Refusal :=
  if s.txAct = false then .next (respond .txIdle 0 s)
  else if s.txWritable = false then .next (respond .txNotReady 0 s)
  else finish do
    let b ← memRead .txw s.txCur.toNat s
    return respond (advancePump s).1 (byteData b) (emit b (advancePump s).2)

end Sys2Proof.Machine
end

