-- ==== Sys2Proof/Machine/Ingress.lean ====
section
/-! DEFINITION. The ingress family (spec/40_ingress_fifo.md): PUSH, DETACH, POP, REARM. -/

namespace Sys2Proof.Machine

/-- PUSH (R141). A full FIFO drops the byte; INB is set first either way while ARMED = 1. -/
def execPush (d : Byte) (s : State) : Host.Outcome State Fault Refusal :=
  if s.fill = s.params.pCap then .next (respond .overflow 0 (enterBurst s))
  else finish do
    let s' ← fifoStore d (enterBurst s)
    return respond .ok 0 s'

/-- DETACH (R142). -/
def execDetach (s : State) : Host.Outcome State Fault Refusal :=
  .next (respond .ok 0 (endBurst s))

/-- POP (R143). -/
def execPop (s : State) : Host.Outcome State Fault Refusal :=
  finish do
    match ← fifoTake s with
    | none => return respond .underflow 0 s
    | some (b, s') => return respond .ok (byteData b) s'

/-- REARM (R144). -/
def execRearm (s : State) : Host.Outcome State Fault Refusal :=
  .next (respond .ok 0 (rearmIngress s))

end Sys2Proof.Machine
end

