-- ==== Sys2Proof/Machine/Dispatch.lean ====
section
/-! DEFINITION. What each operation does, one arm an operation (spec/30_encoding.md R114). -/

namespace Sys2Proof.Machine

/-- The effect of a legal operation, issued on the port that `port` holds. -/
def exec (i : Instr) (s : State) : Host.Outcome State Fault Refusal :=
  match i with
  | .nop => Sys2Proof.Machine.execNop s
  | .push d => Sys2Proof.Machine.execPush d s
  | .detach => Sys2Proof.Machine.execDetach s
  | .pop => Sys2Proof.Machine.execPop s
  | .rearm => Sys2Proof.Machine.execRearm s
  | .setlen n => Sys2Proof.Machine.execSetlen n s
  | .parse d => Sys2Proof.Machine.execParse d s
  | .parsef => Sys2Proof.Machine.execParsef s
  | .pack d => Sys2Proof.Machine.execPack d s
  | .packf => Sys2Proof.Machine.execPackf s
  | .wrpay a d => Sys2Proof.Machine.execWrpay a d s
  | .rdpay a => Sys2Proof.Machine.execRdpay a s
  | .build n => Sys2Proof.Machine.execBuild n s
  | .buildack => Sys2Proof.Machine.execBuildack s
  | .txstep => Sys2Proof.Machine.execTxstep s
  | .rdreg a => Sys2Proof.Machine.execRdreg a s

end Sys2Proof.Machine
end

