-- ==== Sys2Proof/Machine/Ports.lean ====
section
/-! DEFINITION. How the agents and the environment drive the block: a word on a port (spec/30_encoding.md R115),
RXFE's policy (40_ingress_fifo.md R150), arriving bytes (R155), reset (70 R291), and sequences of these. -/

namespace Sys2Proof.Machine

/-- A word on a port: decoded for that port and performed there; an illegal word is answered ILLEGAL (R115,
R241). -/
def issueWord (p : Port) (w : Word) (s : State) : Host.Outcome State Fault Refusal :=
  match decode p w with
  | .ok i => exec i { s with port := p }
  | .error _ => illegalWord { s with port := p }

/-- RXFE's turn (R150): a byte taken and pushed while the transport has one, else DETACH at the end of a burst,
else no step. The test, `take()` and the operation are one step. -/
def rxfeStep (s : State) : Host.Outcome State Fault Refusal :=
  if s.armed then
    match s.rxBytes with
    | b :: rest => exec (.push b) { s with port := .rx, rxBytes := rest }
    | [] => if s.inb then exec .detach { s with port := .rx } else .next s
  else .next s

/-- A byte at the receive transport (R8). A byte that arrives while RXFE is detached may be lost where
P_TRX_RX is `lossy` (R155; log 4). -/
def byteArrives (b : Byte) (lost : Bool) (s : State) : State :=
  if lost ∧ s.armed = false ∧ s.params.trxRx = .lossy then s else { s with rxBytes := s.rxBytes ++ [b] }

/-- What one event does, as one atomic step (R9). -/
def performEvent (e : Event) (s : State) : Host.Outcome State Fault Refusal :=
  match e with
  | .cmdWord w writable => issueWord .cmd w { s with txWritable := writable }
  | .rxWord w => issueWord .rx w s
  | .rxfeTurn => rxfeStep s
  | .arrive b lost => .next (byteArrives b lost s)
  | .reset => .next (resetBlock s)

/-- The events in order, stopping at the first fault or refusal. -/
def performAll : List Event → State → Host.Outcome State Fault Refusal
  | [], s => .next s
  | e :: es, s =>
    match performEvent e s with
    | .next s' => performAll es s'
    | .fault f => .fault f
    | .refused r => .refused r

/-- Operations in order, stopping at the first fault or refusal. -/
def execAll : List Instr → State → Host.Outcome State Fault Refusal
  | [], s => .next s
  | i :: is, s =>
    match exec i s with
    | .next s' => execAll is s'
    | .fault f => .fault f
    | .refused r => .refused r

/-- The event that presents a command word of `nbits` bits where it is legal: on the CMD port, or on the RX port
where only that port decodes it (log 18). -/
def presentWord (nbits w : Nat) (writable : Bool) : Event :=
  let word : Word := BitVec.ofNat 32 (w % 2 ^ nbits)
  match decode .cmd word, decode .rx word with
  | .error _, .ok _ => .rxWord word
  | _, _ => .cmdWord word writable

/-- What one step does: the oldest event, or nothing while there is none (R293: the block waits). -/
def nextEvent (s : State) : Host.Outcome State Fault Refusal :=
  match s.events with
  | [] => .next s
  | e :: rest => performEvent e { s with events := rest }

end Sys2Proof.Machine
end

