-- ==== Sys2Proof/Machine/Step.lean ====
section
/-! DEFINITION. One step of the machine: the oldest event of the environment is performed, atomically
(spec/00_scope.md R9, 20_memory.md R80). -/

namespace Sys2Proof.Machine

/-- One step. -/
def step (s : State) : Host.Outcome State Fault Refusal := nextEvent s

/-- The state in which the very next step performs the command word `w`: the word presented before everything
else the environment does (log 7, log 18). -/
def State.withFetchWord (s : State) (nbits w : Nat) : State :=
  { s with events := presentWord nbits w s.txWritable :: s.events }

end Sys2Proof.Machine
end

