-- ==== Sys2Proof/Machine/Listing.lean ====
section
/-! DEFINITION. The assembler of spec/30_encoding.md R130 and R131: what words a listing line stands for, on which
port. The text of a line is taken as already split into its parts (log 20). -/

namespace Sys2Proof.Machine

/-- The number a literal stands for; a character literal stands for its ASCII code (R130). -/
def literalValue : Literal → Option Nat
  | .decimal n => some n
  | .hexadecimal n => some n
  | .character c => if c.toNat < 128 then some c.toNat else none

/-- A byte operand (R130). A number above 255 is no byte (log 20). `.word`'s operand is `assembleLine`'s (log 23). -/
def literalByte (l : Literal) : Option Byte := do
  let n ← literalValue l
  if n < 256 then some (BitVec.ofNat 8 n) else none

/-- The operation a mnemonic and its operands spell, in field order A then D (R130). -/
def listedInstr : Mnemonic → List Byte → Option Instr
  | .nop, [] => some .nop
  | .push, [d] => some (.push d)
  | .detach, [] => some .detach
  | .pop, [] => some .pop
  | .rearm, [] => some .rearm
  | .setlen, [n] => some (.setlen n)
  | .parse, [d] => some (.parse d)
  | .parsef, [] => some .parsef
  | .pack, [d] => some (.pack d)
  | .packf, [] => some .packf
  | .wrpay, [a, d] => some (.wrpay a d)
  | .rdpay, [a] => some (.rdpay a)
  | .build, [n] => some (.build n)
  | .buildack, [] => some .buildack
  | .txstep, [] => some .txstep
  | .rdreg, [a] => some (.rdreg a)
  | _, _ => none

/-- LDPAY's expansion: one WRPAY for each byte, at rising indices (R131). -/
def ldpayExpansion (a : Byte) : List Byte → List Instr
  | [] => []
  | b :: bs => .wrpay a b :: ldpayExpansion (a + 1) bs

/-- The operations a line stands for, pseudo-operations expanded (R131). A `.word` line stands for none. That an LDPAY
whose bytes do not meet R131's condition, or that has none, assembles to nothing is the model's choice (log 23). -/
def lineInstrs (l : ListingLine) : Option (List Instr) := do
  let bs ← l.operands.mapM literalByte
  match l.name, bs with
  | .op m, _ => (listedInstr m bs).map fun i => [i]
  | .ldpay, a :: rest => if ldpayFits a rest then some (ldpayExpansion a rest) else none
  | .rdstat, [] => some [.rdreg 0x00]
  | .rdfill, [] => some [.rdreg 0x02]
  | .expect, [n] => some [.setlen n]
  | _, _ => none

/-- The default port of a line: `rx` for PUSH and DETACH, `cmd` for every other (R130). -/
def defaultPort : ListingName → Port
  | .op .push => .rx
  | .op .detach => .rx
  | _ => .cmd

/-- The words of a line with their port (R130): `.word w` places the raw word, legal or not. R130 gives literal forms for
a byte operand only: that `.word` takes the same three forms, and that a number of 2^32 or more or another count of
operands assembles to nothing, is the model's choice (DESIGN CHOICE, log 23). -/
def assembleLine (l : ListingLine) : Option (List (Port × Word)) :=
  let p := l.port.getD (defaultPort l.name)
  match l.name, l.operands with
  | .word, [w] => do
    let n ← literalValue w
    if n < 2 ^ 32 then some [(p, BitVec.ofNat 32 n)] else none
  | _, _ => (lineInstrs l).map fun is => is.map fun i => (p, encode i)

/-- A word on a port as an event of the environment. -/
def wordEvent (writable : Bool) : Port × Word → Event
  | (.cmd, w) => .cmdWord w writable
  | (.rx, w) => .rxWord w

end Sys2Proof.Machine
end

