-- ==== Sys2Proof/Machine/Peers.lean ====
section
/-! DEFINITION. Two peers joined by one asynchronous serial link (spec/60_exceptions.md R274): each has its own
instance of the block, and the bytes one hands to `emit` are, after the link, the bytes the other's receive
transport offers to its RXFE. -/

namespace Sys2Proof.Machine

/-- The two peers. -/
inductive Peer where
  | car
  | remote
  deriving DecidableEq, Repr

/-- The two instances, the bytes in flight towards each, and the bytes the link has handed to each (log 21). The drawn
byte of an entry depends on the instance only through `drawEpoch`, so that two instances with equal counts of resets hold
equal bytes where nothing was written; DESIGN CHOICE, unsafe, since the spec draws each instance's bytes apart (log 22). -/
structure Peers where
  car : State
  remote : State
  toCar : List Byte
  toRemote : List Byte
  handedToCar : List Byte
  handedToRemote : List Byte
  deriving DecidableEq, Repr

/-- What the pair does next. -/
inductive PeerEvent where
  /-- A local event of one instance. -/
  | act (who : Peer) (e : Event)
  /-- The link hands the oldest byte in flight to a peer's receive transport; `lost` as for `Event.arrive`. -/
  | deliver (who : Peer) (lost : Bool)
  deriving DecidableEq, Repr

/-- An event of one instance alone: any but an arriving byte, which only the link brings. -/
def isLocalEvent : Event → Bool
  | .arrive _ _ => false
  | _ => true

/-- The car's instance after a step, what it sent put in flight. -/
def Peers.afterCar (q : Peers) (t : State) : Peers :=
  { q with car := t, toRemote := q.toRemote ++ t.emitted.drop q.car.emitted.length }

/-- The remote's instance after a step, what it sent put in flight. -/
def Peers.afterRemote (q : Peers) (t : State) : Peers :=
  { q with remote := t, toCar := q.toCar ++ t.emitted.drop q.remote.emitted.length }

/-- One step of the pair. -/
def peersStep (e : PeerEvent) (q : Peers) : Host.Outcome Peers Fault Refusal :=
  match e with
  | .act .car ev =>
    if isLocalEvent ev then
      match performEvent ev q.car with
      | .next t => .next (q.afterCar t)
      | .fault f => .fault f
      | .refused r => .refused r
    else .next q
  | .act .remote ev =>
    if isLocalEvent ev then
      match performEvent ev q.remote with
      | .next t => .next (q.afterRemote t)
      | .fault f => .fault f
      | .refused r => .refused r
    else .next q
  | .deliver .car lost =>
    match q.toCar with
    | [] => .next q
    | b :: rest =>
      .next { q with car := byteArrives b lost q.car, toCar := rest, handedToCar := q.handedToCar ++ [b] }
  | .deliver .remote lost =>
    match q.toRemote with
    | [] => .next q
    | b :: rest =>
      .next { q with remote := byteArrives b lost q.remote, toRemote := rest, handedToRemote := q.handedToRemote ++ [b] }

end Sys2Proof.Machine
end

