-- ==== Sys2Proof/Safety.lean ====
section
/-! DEFINITION. The terms the statements use: what a run shows (spec/00_scope.md R10), the invariants of
spec/10_state.md and spec/93_implementation_defined.md U15, frames, and the histories of the FIFO and the deframer. -/

namespace Sys2Proof.Machine

/-! ## The observation -/

/-- What a run shows (R10), but for the final architectural state, which is the state itself. -/
structure Observation where
  rx : List Word
  cmd : List Word
  sent : List Byte
  deriving DecidableEq, Repr

/-- The response words a port has returned, oldest first (R10). -/
def State.responsesOn (s : State) (p : Port) : List Word :=
  (s.responses.filter fun r => r.1 == p).map (·.2)

/-- The observation of a run that has reached `s` (R10). -/
def State.observation (s : State) : Observation where
  rx := s.responsesOn .rx
  cmd := s.responsesOn .cmd
  sent := s.emitted

/-- `t` has answered exactly one word more than `s`, on the port `s` serves (R18, R120). -/
abbrev Answered (rc : ResultCode) (data : Data) (s t : State) : Prop :=
  t.responses = s.responses ++ [(s.port, responseWord rc data)]

/-! ## Invariants -/

/-- The FIFO's registers (R11, R12, R35, R36). -/
abbrev FifoInv (s : State) : Prop :=
  s.params.wf ∧ s.rdIdx < s.params.pCap ∧ s.wrIdx < s.params.pCap ∧ s.fill ≤ s.params.pCap ∧
    s.wrIdx = (s.rdIdx + s.fill) % s.params.pCap

/-- The receive-interrupt bits (R40). -/
abbrev IngressInv (s : State) : Prop :=
  ¬(s.armed = true ∧ s.dpend = true) ∧ (s.inb = true → s.armed = true)

/-- The deframer's counters (R44). -/
abbrev DeframerInv (s : State) : Prop :=
  (s.pst = .collecting → s.pcount < s.flen) ∧ (s.pst = .awaitEnd1 → s.pcount = s.flen) ∧
    (s.pst = .awaitEnd2 → s.pcount = s.flen)

/-- The transmitter's registers (R50, R51). -/
abbrev TransmitInv (s : State) : Prop :=
  (s.txAct = true → s.txCur < s.txLen) ∧ (s.txAct = false → s.txCur = 0) ∧
    (s.txLen = 0 ∨ (3 ≤ s.txLen ∧ s.txLen ≤ 258))

/-- A space in canonical form and within its size (R70). -/
abbrev SpaceInv (c : Params) (sp : Space) (m : Memory) : Prop :=
  m.wf ∧ ∀ cell ∈ m, cell.1 < spaceSize c sp

/-- Every space in canonical form and within its size (R70). -/
abbrev MemoryInv (s : State) : Prop :=
  SpaceInv s.params .fifo s.fifo ∧ SpaceInv s.params .rxpay s.rxpay ∧ SpaceInv s.params .txpay s.txpay ∧
    SpaceInv s.params .txw s.txw

/-- The entries the FIFO holds were written since reset (R147). -/
abbrev FifoWritten (s : State) : Prop :=
  ∀ k < s.fill, (s.fifo.read? ((s.rdIdx + k) % s.params.pCap)).isSome

/-- A valid payload is a delivered one, and the bytes collected so far were written since reset (R45, R47). -/
abbrev PayloadWritten (s : State) : Prop :=
  (s.fv = true → s.pst = .awaitStart ∧ s.pcount = s.flen) ∧
    ((s.fv = true ∨ s.pst ≠ .awaitStart) → ∀ k < s.pcount.toNat, (s.rxpay.read? k).isSome)

/-- Every byte of the wire image was written since reset (R49). -/
abbrev ImageWritten (s : State) : Prop :=
  ∀ k < s.txLen.toNat, (s.txw.read? k).isSome

/-- The invariants under which no step faults: the registers of R36, R40, R44 and R51 (U15). -/
abbrev Inv (s : State) : Prop := FifoInv s ∧ IngressInv s ∧ DeframerInv s ∧ TransmitInv s

/-- The wire image in TXW (R50). -/
def wireImage (s : State) : List Byte := (List.range s.txLen.toNat).map fun k => s.byteAt .txw k

/-- The wire image, once one was built, is an ack frame or a frame of at most 255 payload bytes (R100, R101). -/
def ImageForm (s : State) : Prop :=
  s.txLen ≠ 0 → wireImage s = ackBytes ∨ ∃ payload : List Byte, payload.length ≤ 255 ∧ wireImage s = frameBytes payload

/-! ## Frames -/

/-- The FIFO and its registers are unchanged. -/
structure SameFifo (s t : State) : Prop where
  rdIdx : t.rdIdx = s.rdIdx
  wrIdx : t.wrIdx = s.wrIdx
  fill : t.fill = s.fill
  bytes : ∀ i, t.byteAt .fifo i = s.byteAt .fifo i

/-- The receive-interrupt bits are unchanged. -/
structure SameIngress (s t : State) : Prop where
  armed : t.armed = s.armed
  dpend : t.dpend = s.dpend
  inb : t.inb = s.inb

/-- The deframer's registers and RXPAY are unchanged. -/
structure SameDeframer (s t : State) : Prop where
  len : t.len = s.len
  flen : t.flen = s.flen
  pcount : t.pcount = s.pcount
  pst : t.pst = s.pst
  fv : t.fv = s.fv
  bytes : ∀ i, t.byteAt .rxpay i = s.byteAt .rxpay i

/-- The transmitter's registers, TXPAY, TXW and the output stream are unchanged. -/
structure SameTransmit (s t : State) : Prop where
  txLen : t.txLen = s.txLen
  txCur : t.txCur = s.txCur
  txAct : t.txAct = s.txAct
  staged : ∀ i, t.byteAt .txpay i = s.byteAt .txpay i
  image : ∀ i, t.byteAt .txw i = s.byteAt .txw i
  emitted : t.emitted = s.emitted

/-- The configuration and the environment are unchanged. -/
structure SameEnvironment (s t : State) : Prop where
  params : t.params = s.params
  drawEpoch : t.drawEpoch = s.drawEpoch
  port : t.port = s.port
  txWritable : t.txWritable = s.txWritable
  rxBytes : t.rxBytes = s.rxBytes
  events : t.events = s.events

/-- Everything but the responses is unchanged. -/
structure SameBlock (s t : State) : Prop where
  fifo : SameFifo s t
  ingress : SameIngress s t
  deframer : SameDeframer s t
  ast : t.ast = s.ast
  transmit : SameTransmit s t
  environment : SameEnvironment s t

/-- Everything but the deframer is unchanged, the responses apart. -/
structure OnlyDeframer (s t : State) : Prop where
  fifo : SameFifo s t
  ingress : SameIngress s t
  len : t.len = s.len
  ast : t.ast = s.ast
  transmit : SameTransmit s t
  environment : SameEnvironment s t

/-- The deframer has accepted a start marker (R172): FLEN, PCOUNT, FV and PST after it. -/
abbrev FrameStarted (s t : State) : Prop :=
  t.flen = s.len ∧ t.pcount = 0 ∧ t.fv = false ∧ t.pst = if s.len = 0 then .awaitEnd1 else .collecting

/-- FLEN, PCOUNT and FV are unchanged and PST is `p`. -/
abbrev DeframerAt (p : DeframerState) (s t : State) : Prop :=
  t.flen = s.flen ∧ t.pcount = s.pcount ∧ t.fv = s.fv ∧ t.pst = p

/-- The candidate frame was broken by `b` (R175): a new frame where P_RESYNC_REEXAMINE = 1 and `b` is the start
marker, else AWAIT_START. -/
abbrev Resynced (b : Byte) (s t : State) : Prop :=
  if s.params.resyncReexamine = true ∧ b = startMarker then FrameStarted s t else DeframerAt .awaitStart s t

/-- AST after a byte that breaks an ack (R178). -/
abbrev ackResynced (b : Byte) (s : State) : AckState :=
  if s.params.resyncReexamine = true ∧ b = startMarker then .aGotSm else .aStart

/-! ## The link -/

/-- The byte `b` has arrived at the transport of `s` (R155, R274): behind the bytes held, unless a lossy transport loses
it while RXFE is detached. -/
abbrev ByteReceived (b : Byte) (lost : Bool) (s t : State) : Prop :=
  t = byteArrives b lost s ∧
    ((s.armed = true ∨ s.params.trxRx = .keep ∨ lost = false) → t.rxBytes = s.rxBytes ++ [b])

/-! ## The register map -/

/-- The value the table of R242 gives each address, its fields placed by R53 and R54. -/
def registerMap (s : State) : List (Byte × Nat) := [
  (0x00, s.armed.toNat + 2 * s.dpend.toNat + 4 * s.fv.toNat + 8 * s.txAct.toNat + 16 * s.inb.toNat),
  (0x01, (match s.pst with | .awaitStart => 0 | .collecting => 1 | .awaitEnd1 => 2 | .awaitEnd2 => 3) +
    4 * (match s.ast with | .aStart => 0 | .aGotSm => 1 | .aGotAk1 => 2)),
  (0x02, s.fill), (0x03, s.rdIdx), (0x04, s.wrIdx), (0x05, s.len.toNat), (0x06, s.flen.toNat),
  (0x07, s.pcount.toNat), (0x08, s.txLen.toNat), (0x09, s.txCur.toNat), (0x0A, s.params.pCap)]

/-! ## The FIFO as a queue -/

/-- The bytes the FIFO holds, oldest first. -/
def fifoContents (s : State) : List Byte :=
  (List.range s.fill).map fun k => s.byteAt .fifo ((s.rdIdx + k) % s.params.pCap)

/-- The byte an operation adds to the FIFO, if it does (R141). -/
def addedBytes (i : Instr) (s : State) : List Byte :=
  match i with
  | .push d => if s.fill = s.params.pCap then [] else [d]
  | _ => []

/-- Whether an operation removes a FIFO entry where there is one (R33). -/
def removesFifo : Instr → Bool
  | .pop => true
  | .parsef => true
  | .packf => true
  | _ => false

/-- The byte an operation removes from the FIFO, if it does (R143, R145). -/
def removedBytes (i : Instr) (s : State) : List Byte :=
  if removesFifo i then (fifoContents s).take 1 else []

/-- The bytes a sequence of operations adds to the FIFO, in order. -/
def addedBytesAll : List Instr → State → List Byte
  | [], _ => []
  | i :: is, s =>
    addedBytes i s ++ match exec i s with
      | .next t => addedBytesAll is t
      | _ => []

/-- The bytes a sequence of operations removes from the FIFO, in order. -/
def removedBytesAll : List Instr → State → List Byte
  | [], _ => []
  | i :: is, s =>
    removedBytes i s ++ match exec i s with
      | .next t => removedBytesAll is t
      | _ => []

/-- The state after the FIFO's oldest entry is removed (R145). -/
def fifoAdvanced (s : State) : State :=
  { s with rdIdx := (s.rdIdx + 1) % s.params.pCap, fill := s.fill - 1 }

/-! ## Deframer histories -/

/-- The operations that give the deframer the bytes of a history, each with the value LEN holds just before it:
SETLEN of that length, then PARSE (R183). -/
def feedOps (xs : List (Byte × Byte)) : List Instr := xs.flatMap fun x => [.setlen x.1, .parse x.2]

/-- The most bytes the candidate frame in progress can still take (R184). -/
def bytesToEnd (s : State) : Nat :=
  match s.pst with
  | .awaitStart => 0
  | .collecting => s.flen.toNat - s.pcount.toNat + 2
  | .awaitEnd1 => 2
  | .awaitEnd2 => 1

end Sys2Proof.Machine
end

