-- ==== Sys2Proof/Certificates/Slice0/Obligations.lean ====
section
/-! DEFINITION. The statements for the provers, each from the numbered rules of spec/. -/

open Sys2Proof Sys2Proof.Machine

/-! ## Encodings (spec/30_encoding.md) -/

/-- R114, R115: the word of an operation decodes to it on every port the operation is legal on, with every value of
every operand. -/
def Obligations.EncodeThenDecode : Prop :=
  ∀ (p : Port) (i : Instr), i.legalOn p = true → decode p (encode i) = .ok i

/-- R114, R116: a word that decodes on a port is the word of the operation it decodes to, which is legal there; so no
two words spell one operation and no bit is dropped. -/
def Obligations.DecodeThenEncode : Prop :=
  ∀ (p : Port) (w : Word) (i : Instr), decode p w = .ok i → encode i = w ∧ i.legalOn p = true

/-- R115: on every word and both ports the decoder picks the row that the mask-and-match procedure picks, and is
illegal where no row matches. -/
def Obligations.DecodeFollowsOpcodeMap : Prop :=
  ∀ (p : Port) (w : Word),
    (match decode p w with
      | .ok i => some i.mnemonic
      | .error _ => none) = decodeByTable p w

/-- R114: no two rows match the same word, and every mask includes bits 31:27. -/
def Obligations.OpcodeRowsDisjoint : Prop :=
  (∀ (w : Word) (r r' : OpcodeRow), r ∈ opcodeTable → r' ∈ opcodeTable →
      r.matches w = true → r'.matches w = true → r = r') ∧
    ∀ r ∈ opcodeTable, r.mask.extractLsb' 27 5 = 0x1F

/-- R132: the worked encodings, and the four illegal examples on the CMD port. -/
def Obligations.WorkedEncodings : Prop :=
  encode (.parse 0x24) = 0x60000024 ∧ decode .cmd 0x60000024 = .ok (.parse 0x24) ∧
  encode .parsef = 0x68000000 ∧ decode .cmd 0x68000000 = .ok .parsef ∧
  encode (.push 0x41) = 0x10000041 ∧ decode .rx 0x10000041 = .ok (.push 0x41) ∧
  encode (.setlen 64) = 0x50000040 ∧ decode .cmd 0x50000040 = .ok (.setlen 64) ∧
  encode (.wrpay 3 0x99) = 0x80000399 ∧ decode .cmd 0x80000399 = .ok (.wrpay 3 0x99) ∧
  encode (.rdpay 0) = 0x90000000 ∧ decode .cmd 0x90000000 = .ok (.rdpay 0) ∧
  encode (.build 2) = 0xA0000002 ∧ decode .cmd 0xA0000002 = .ok (.build 2) ∧
  encode .buildack = 0xB0000000 ∧ decode .cmd 0xB0000000 = .ok .buildack ∧
  encode .txstep = 0xC0000000 ∧ decode .cmd 0xC0000000 = .ok .txstep ∧
  encode (.rdreg 0x0A) = 0xD0000A00 ∧ decode .cmd 0xD0000A00 = .ok (.rdreg 0x0A) ∧
  encode .pop = 0x30000000 ∧ decode .cmd 0x30000000 = .ok .pop ∧
  encode .rearm = 0x40000000 ∧ decode .cmd 0x40000000 = .ok .rearm ∧
  encode .detach = 0x20000000 ∧ decode .rx 0x20000000 = .ok .detach ∧
  encode .nop = 0x00000000 ∧ decode .cmd 0x00000000 = .ok .nop ∧ decode .rx 0x00000000 = .ok .nop ∧
  (∀ w ∈ [(0xE0000000 : Word), 0x60010024, 0x68000024, 0x38000000], ∃ e, decode .cmd w = .error e)

/-- R20: the marker constants, which are the ASCII codes of the characters R20 gives for them. That the two agree under
ASCII is a sentence R20 marks as general knowledge, not in source (93_implementation_defined.md G1). -/
def Obligations.MarkerConstants : Prop :=
  startMarker = 0x24 ∧ endMarker1 = 0x40 ∧ endMarker2 = 0x23 ∧ ackByte1 = 0x2A ∧ ackByte2 = 0x25 ∧
    ['$', '@', '#', '*', '%'].map Char.toNat =
      [startMarker, endMarker1, endMarker2, ackByte1, ackByte2].map BitVec.toNat

/-- R131: LDPAY's expansion, where it fits, stages its bytes at rising indices and changes nothing else. -/
def Obligations.LdpayStagesItsBytes : Prop :=
  ∀ (a : Byte) (bs : List Byte) (s : State), ldpayFits a bs = true →
    ∃ t, execAll (ldpayExpansion a bs) s = .next t ∧
      (∀ (k : Nat) (hk : k < bs.length), t.byteAt .txpay (a.toNat + k) = bs[k]) ∧
      (∀ j, (j < a.toNat ∨ a.toNat + bs.length ≤ j) → t.byteAt .txpay j = s.byteAt .txpay j) ∧
      t.responses = s.responses ++ List.replicate bs.length (s.port, 0x00000000#32) ∧
      SameFifo s t ∧ SameIngress s t ∧ SameDeframer s t ∧ t.ast = s.ast ∧ SameEnvironment s t ∧
      t.txLen = s.txLen ∧ t.txCur = s.txCur ∧ t.txAct = s.txAct ∧ t.emitted = s.emitted ∧
      (∀ i, t.byteAt .txw i = s.byteAt .txw i)

/-! ## Steps, ports and responses -/

/-- R115: a step whose oldest event is a word on a port that decodes there performs that operation, issued on that
port, the event gone and (for the CMD port) the transport's answer that came with it in force; every other event is
performed the same way, and where there is no event the block waits. That a step takes the oldest of a list of events
is the model's choice (log 6). -/
def Obligations.StepRunsDecodedOperation : Prop :=
  (∀ (s : State) (w : Word) (writable : Bool) (es : List Event) (i : Instr),
      s.events = .cmdWord w writable :: es → decode .cmd w = .ok i →
        step s = exec i { s with events := es, txWritable := writable, port := .cmd }) ∧
  (∀ (s : State) (w : Word) (es : List Event) (i : Instr),
      s.events = .rxWord w :: es → decode .rx w = .ok i →
        step s = exec i { s with events := es, port := .rx }) ∧
  (∀ (s : State) (e : Event) (es : List Event), s.events = e :: es →
      step s = performEvent e { s with events := es }) ∧
  (∀ s : State, s.events = [] → step s = .next s)

/-- R241: a word that spells no operation on its port is answered ILLEGAL with DATA 0 there, and nothing else
changes. -/
def Obligations.IllegalWordOnlyAnswers : Prop :=
  ∀ (p : Port) (w : Word) (e : DecodeError) (s : State), decode p w = .error e →
    ∃ t, issueWord p w s = .next t ∧ t.responses = s.responses ++ [(p, 0xA0000000#32)] ∧
      SameBlock { s with port := p } t

/-- R120: every word presented on a port, legal or not, is answered by exactly one response word, on that port, with a
result code that is not reserved in bits 31:28 and zeros in bits 27:16. -/
def Obligations.OneResponsePerWord : Prop :=
  ∀ (p : Port) (w : Word) (s t : State), issueWord p w s = .next t →
    ∃ (rc : ResultCode) (r : Word), t.responses = s.responses ++ [(p, r)] ∧
      r.extractLsb' 28 4 = rc.code ∧ r.extractLsb' 16 12 = 0 ∧ rc.code.toNat ≤ 0xA

/-- R81: a PUSH of `b` and a POP presented at once with FILL = 0 are performed in either order, each with its own
answers and FILL. -/
def Obligations.BothPortOrdersAdmitted : Prop :=
  ∀ (s : State) (b : Byte) (writable : Bool), FifoInv s → s.fill = 0 →
    (∃ t, performAll [.cmdWord (encode .pop) writable, .rxWord (encode (.push b))] s = .next t ∧
      t.responses = s.responses ++ [(.cmd, 0x40000000#32), (.rx, 0x00000000#32)] ∧ t.fill = 1) ∧
    (∃ t, performAll [.rxWord (encode (.push b)), .cmdWord (encode .pop) writable] s = .next t ∧
      t.responses = s.responses ++ [(.rx, 0x00000000#32), (.cmd, b.setWidth 32)] ∧ t.fill = 0)

/-! ## The ingress family (spec/40_ingress_fifo.md) -/

/-- R141: a PUSH into a FIFO that is not full stores the byte at WRIDX, advances WRIDX modulo P_CAP, counts it, sets
INB while ARMED = 1, answers OK, and changes nothing else. -/
def Obligations.PushStoresByte : Prop :=
  ∀ (d : Byte) (s : State), s.fill ≠ s.params.pCap → s.wrIdx < s.params.pCap →
    ∃ t, exec (.push d) s = .next t ∧ Answered .ok 0 s t ∧
      t.byteAt .fifo s.wrIdx = d ∧ (∀ i, i ≠ s.wrIdx → t.byteAt .fifo i = s.byteAt .fifo i) ∧
      t.wrIdx = (s.wrIdx + 1) % s.params.pCap ∧ t.fill = s.fill + 1 ∧ t.rdIdx = s.rdIdx ∧
      t.inb = (s.inb || s.armed) ∧ t.armed = s.armed ∧ t.dpend = s.dpend ∧
      SameDeframer s t ∧ t.ast = s.ast ∧ SameTransmit s t ∧ SameEnvironment s t

/-- R146: a PUSH that overflows leaves the FIFO, RDIDX, WRIDX and FILL unchanged and may write INB only; a POP, PARSEF
or PACKF that underflows leaves every register and space unchanged. -/
def Obligations.RejectionWithoutMutation : Prop :=
  (∀ (d : Byte) (s : State), s.fill = s.params.pCap →
    ∃ t, exec (.push d) s = .next t ∧ Answered .overflow 0 s t ∧ SameFifo s t ∧
      t.inb = (s.inb || s.armed) ∧ t.armed = s.armed ∧ t.dpend = s.dpend ∧
      SameDeframer s t ∧ t.ast = s.ast ∧ SameTransmit s t ∧ SameEnvironment s t) ∧
  (∀ (i : Instr) (s : State), i = .pop ∨ i = .parsef ∨ i = .packf → s.fill = 0 →
    ∃ t, exec i s = .next t ∧ Answered .underflow 0 s t ∧ SameBlock s t)

/-- R142, R144: DETACH leaves ARMED 0, DPEND 1, INB 0; REARM leaves ARMED 1, DPEND 0 and INB as it was; each answers OK
and changes nothing else. -/
def Obligations.DetachAndRearm : Prop :=
  ∀ s : State,
    (∃ t, exec .detach s = .next t ∧ Answered .ok 0 s t ∧
      t.armed = false ∧ t.dpend = true ∧ t.inb = false ∧
      SameFifo s t ∧ SameDeframer s t ∧ t.ast = s.ast ∧ SameTransmit s t ∧ SameEnvironment s t) ∧
    (∃ t, exec .rearm s = .next t ∧ Answered .ok 0 s t ∧
      t.armed = true ∧ t.dpend = false ∧ t.inb = s.inb ∧
      SameFifo s t ∧ SameDeframer s t ∧ t.ast = s.ast ∧ SameTransmit s t ∧ SameEnvironment s t)

/-- R143: a POP from a FIFO that holds bytes answers OK with the byte at RDIDX, advances RDIDX modulo P_CAP and counts
the byte off; the entry's storage and everything else stay. -/
def Obligations.PopRemovesOldest : Prop :=
  ∀ s : State, s.fill ≠ 0 → s.rdIdx < s.params.pCap →
    ∃ t, exec .pop s = .next t ∧ Answered .ok ((s.byteAt .fifo s.rdIdx).setWidth 16) s t ∧
      t.rdIdx = (s.rdIdx + 1) % s.params.pCap ∧ t.fill + 1 = s.fill ∧ t.wrIdx = s.wrIdx ∧
      (∀ i, t.byteAt .fifo i = s.byteAt .fifo i) ∧
      SameIngress s t ∧ SameDeframer s t ∧ t.ast = s.ast ∧ SameTransmit s t ∧ SameEnvironment s t

/-- R82, R148: over any sequence of operations, what the FIFO held followed by what PUSH added is what was removed followed
by what the FIFO holds: bytes leave in the order they were accepted, each once, and no rejected byte leaves. FILL grows
by the accepted PUSHes and shrinks by the removals. -/
def Obligations.FifoKeepsOrder : Prop :=
  ∀ (is : List Instr) (s t : State), FifoInv s → execAll is s = .next t →
    fifoContents s ++ addedBytesAll is s = removedBytesAll is s ++ fifoContents t ∧
      t.fill + (removedBytesAll is s).length = s.fill + (addedBytesAll is s).length

/-- R149: from reset, over any sequence of operations, RDIDX counts the removals and WRIDX the accepted PUSHes, each modulo
P_CAP, and FILL is what was accepted and not removed; so after P_CAP accepted PUSHes and P_CAP removals, in any order, both
indices and FILL are 0. P_CAP PUSHes followed by P_CAP removals are such a sequence. -/
def Obligations.FifoWrapsAround : Prop :=
  (∀ (c : Params) (is : List Instr) (t : State), c.wf → execAll is { State.reset with params := c } = .next t →
    t.rdIdx = (removedBytesAll is { State.reset with params := c }).length % c.pCap ∧
      t.wrIdx = (addedBytesAll is { State.reset with params := c }).length % c.pCap ∧
      t.fill + (removedBytesAll is { State.reset with params := c }).length =
        (addedBytesAll is { State.reset with params := c }).length) ∧
  ∀ (c : Params) (ds : List Byte) (rs : List Instr), c.wf → ds.length = c.pCap → rs.length = c.pCap →
    (∀ r ∈ rs, removesFifo r = true) →
    ∃ t, execAll (ds.map .push ++ rs) { State.reset with params := c } = .next t ∧
      t.rdIdx = 0 ∧ t.wrIdx = 0 ∧ t.fill = 0

/-- R150: RXFE's turn. ARMED = 1 and a readable byte: `take()` and PUSH of that byte on the RX port. ARMED = 1, INB = 1
and nothing readable: DETACH. Otherwise R150 gives no step; that a turn then leaves the state as it is, is the model's
choice (log 16). -/
def Obligations.RxfeFollowsPolicy : Prop :=
  ∀ s : State,
    (∀ (b : Byte) (rest : List Byte), s.armed = true → s.rxBytes = b :: rest →
      performEvent .rxfeTurn s = issueWord .rx (encode (.push b)) { s with rxBytes := rest }) ∧
    (s.armed = true → s.inb = true → s.rxBytes = [] →
      performEvent .rxfeTurn s = issueWord .rx (encode .detach) s) ∧
    (s.armed = false ∨ (s.inb = false ∧ s.rxBytes = []) → performEvent .rxfeTurn s = .next s)

/-- R150, R152: a burst. RXFE's turns, one for each byte the transport holds and one more, put the bytes into the FIFO
in order as far as there is room, drop the rest, and end detached with the dispatch posted. -/
def Obligations.BurstDrainsTransport : Prop :=
  ∀ (s : State) (bs : List Byte), FifoInv s → s.armed = true → s.rxBytes = bs → (bs ≠ [] ∨ s.inb = true) →
    ∃ t, performAll (List.replicate (bs.length + 1) .rxfeTurn) s = .next t ∧
      fifoContents t = fifoContents s ++ bs.take (s.params.pCap - s.fill) ∧
      t.rxBytes = [] ∧ t.armed = false ∧ t.dpend = true ∧ t.inb = false

/-- R153: while the deferred dispatch is pending ARMED is 0, RXFE has no step and no byte enters the FIFO: as long as no
REARM, no reset and no word of a test driver on the RX port comes, every run leaves DPEND, WRIDX and the FIFO's bytes as
they are, so that the next PUSH follows a REARM. That a turn in which RXFE has no step leaves the state as it is, is the
model's choice (log 16). -/
def Obligations.NoPushWhileDispatchPending : Prop :=
  ∀ (es : List Event) (s t : State), IngressInv s → s.dpend = true →
    (∀ e ∈ es, e ≠ .reset ∧ (∀ w, e ≠ .rxWord w) ∧ ∀ writable, e ≠ .cmdWord (encode .rearm) writable) →
    performAll es s = .next t →
      t.dpend = true ∧ t.armed = false ∧ performEvent .rxfeTurn t = .next t ∧
        t.wrIdx = s.wrIdx ∧ ∀ i, t.byteAt .fifo i = s.byteAt .fifo i

/-- R155: a byte that arrives is held by the transport, behind the bytes it holds, unless RXFE is detached, P_TRX_RX is
lossy and the draw loses it; nothing else changes. That the draw falls at the arrival is the model's choice (log 4). -/
def Obligations.ArrivingBytes : Prop :=
  ∀ (s : State) (b : Byte) (lost : Bool),
    ((s.armed = true ∨ s.params.trxRx = .keep ∨ lost = false) →
      performEvent (.arrive b lost) s = .next { s with rxBytes := s.rxBytes ++ [b] }) ∧
    (s.armed = false → s.params.trxRx = .lossy → lost = true → performEvent (.arrive b lost) s = .next s)

/-! ## The deframer family (spec/41_deframer.md) -/

/-- R171: SETLEN writes LEN, answers OK and changes nothing else; the frame in progress keeps FLEN. -/
def Obligations.SetlenSetsLength : Prop :=
  ∀ (n : Byte) (s : State), ∃ t, exec (.setlen n) s = .next t ∧ Answered .ok 0 s t ∧
    t.len = n ∧ t.flen = s.flen ∧ t.pcount = s.pcount ∧ t.pst = s.pst ∧ t.fv = s.fv ∧
    (∀ i, t.byteAt .rxpay i = s.byteAt .rxpay i) ∧
    SameFifo s t ∧ SameIngress s t ∧ t.ast = s.ast ∧ SameTransmit s t ∧ SameEnvironment s t

/-- R170: PARSE follows the transition table, row by row, with the response of R122. In COLLECTING the byte is stored at
PCOUNT, which the invariant of R44 keeps below 255. -/
def Obligations.ParseFollowsTransitionTable : Prop :=
  ∀ (b : Byte) (s : State), (s.pst = .collecting → s.pcount.toNat < 255) →
    ∃ t, exec (.parse b) s = .next t ∧ OnlyDeframer s t ∧
      match s.pst with
      | .awaitStart =>
        Answered .ok (b.setWidth 16) s t ∧ (∀ i, t.byteAt .rxpay i = s.byteAt .rxpay i) ∧
          (if b = startMarker then FrameStarted s t else DeframerAt .awaitStart s t)
      | .collecting =>
        Answered .ok (b.setWidth 16) s t ∧ t.byteAt .rxpay s.pcount.toNat = b ∧
          (∀ i, i ≠ s.pcount.toNat → t.byteAt .rxpay i = s.byteAt .rxpay i) ∧
          t.pcount = s.pcount + 1 ∧ t.flen = s.flen ∧ t.fv = s.fv ∧
          t.pst = if s.pcount + 1 = s.flen then .awaitEnd1 else .collecting
      | .awaitEnd1 =>
        Answered .ok (b.setWidth 16) s t ∧ (∀ i, t.byteAt .rxpay i = s.byteAt .rxpay i) ∧
          (if b = endMarker1 then DeframerAt .awaitEnd2 s t else Resynced b s t)
      | .awaitEnd2 =>
        (∀ i, t.byteAt .rxpay i = s.byteAt .rxpay i) ∧
          (if b = endMarker2 then
            Answered .frame (s.flen ++ b) s t ∧ t.flen = s.flen ∧ t.pcount = s.pcount ∧ t.fv = true ∧
              t.pst = .awaitStart
          else Answered .ok (b.setWidth 16) s t ∧ Resynced b s t)

/-- R177: a PARSEF on a FIFO that holds bytes does exactly what PARSE does with the byte at RDIDX in the state without
that byte, and answers the same. -/
def Obligations.ParsefStepsOnFifoHead : Prop :=
  ∀ s : State, s.fill ≠ 0 → s.rdIdx < s.params.pCap → (s.pst = .collecting → s.pcount.toNat < 255) →
    ∃ t, exec .parsef s = .next t ∧ exec (.parse (s.byteAt .fifo s.rdIdx)) (fifoAdvanced s) = .next t

/-- R181: RDPAY of an index below 255 answers OK with the byte RXPAY holds there, whatever FV and FLEN say, and changes
nothing. -/
def Obligations.RdpayReadsPayload : Prop :=
  ∀ (a : Byte) (s : State), a ≠ 255 →
    ∃ t, exec (.rdpay a) s = .next t ∧ Answered .ok ((s.byteAt .rxpay a.toNat).setWidth 16) s t ∧ SameBlock s t

/-- R183: exact acceptance, with P_RESYNC_REEXAMINE = 0, for any bytes given to PARSE one after another and any value
of LEN before each. The last byte completes a frame exactly when, for some start, PST was AWAIT_START before a start
marker read with LEN = L, L payload bytes followed, and EM1 and EM2 came last; then FLEN is L and RXPAY holds the
payload. -/
def Obligations.ExactFrameAcceptance : Prop :=
  ∀ (xs : List (Byte × Byte)) (s : State), xs ≠ [] → s.pst = .awaitStart → s.params.resyncReexamine = false →
    ∃ u, execAll (feedOps xs) s = .next u ∧
      ((∃ data, u.responses.getLast? = some (s.port, responseWord .frame data)) ↔
        ∃ (pre mid : List (Byte × Byte)) (L l1 l2 : Byte) (t : State),
          xs = pre ++ (L, startMarker) :: mid ++ [(l1, endMarker1), (l2, endMarker2)] ∧ mid.length = L.toNat ∧
            execAll (feedOps pre) s = .next t ∧ t.pst = .awaitStart) ∧
      ∀ (pre mid : List (Byte × Byte)) (L l1 l2 : Byte) (t : State),
        xs = pre ++ (L, startMarker) :: mid ++ [(l1, endMarker1), (l2, endMarker2)] → mid.length = L.toNat →
          execAll (feedOps pre) s = .next t → t.pst = .awaitStart →
            u.flen = L ∧ u.fv = true ∧
              ∀ (k : Nat) (hk : k < mid.length), u.byteAt .rxpay k = (mid[k]).2

/-- R100, R102, R170: a well-formed frame with any payload of LEN bytes, markers among them or not, given to PARSE from
AWAIT_START is delivered: OK for every byte but the last, FRAME with FLEN for the last, the payload in RXPAY, FV = 1. -/
def Obligations.WholeFrameDelivered : Prop :=
  ∀ (payload : List Byte) (s : State), s.pst = .awaitStart → s.len.toNat = payload.length →
    ∃ t, execAll ((frameBytes payload).map .parse) s = .next t ∧
      t.responses = s.responses ++
        (startMarker :: payload ++ [endMarker1]).map (fun b => (s.port, responseWord .ok (b.setWidth 16))) ++
        [(s.port, responseWord .frame (s.len ++ endMarker2))] ∧
      t.pst = .awaitStart ∧ t.fv = true ∧ t.flen = s.len ∧
      ∀ (k : Nat) (hk : k < payload.length), t.byteAt .rxpay k = payload[k]

/-- R185: with LEN = 2 the malformed prefix 24 41 41 40 58 23 followed by a well-formed frame yields exactly one FRAME,
at the last byte, with that frame's payload, whatever P_RESYNC_REEXAMINE is. -/
def Obligations.MalformedPrefixDoesNotLeak : Prop :=
  ∀ (s : State) (p0 p1 : Byte), s.pst = .awaitStart → s.len = 2 →
    ∃ t, execAll (([0x24, 0x41, 0x41, 0x40, 0x58, 0x23, 0x24, p0, p1, 0x40, 0x23] : List Byte).map .parse) s = .next t ∧
      t.responses = s.responses ++
        ([0x24, 0x41, 0x41, 0x40, 0x58, 0x23, 0x24, p0, p1, 0x40] : List Byte).map
          (fun b => (s.port, responseWord .ok (b.setWidth 16))) ++ [(s.port, 0x10000223#32)] ∧
      t.byteAt .rxpay 0 = p0 ∧ t.byteAt .rxpay 1 = p1 ∧ t.flen = 2 ∧ t.fv = true

/-- R184: with P_RESYNC_REEXAMINE = 0 a candidate frame ends within FLEN − PCOUNT + 2 bytes from COLLECTING, 2 from
AWAIT_END1 and 1 from AWAIT_END2, at most 257 in all, whatever the bytes are; an ack candidate ends within 2. -/
def Obligations.RecognizersNeverLockUp : Prop :=
  (∀ s : State, DeframerInv s → bytesToEnd s ≤ 257 ∧
    ∀ xs : List Byte, s.params.resyncReexamine = false → xs.length = bytesToEnd s →
      ∃ k ≤ xs.length, ∃ t, execAll ((xs.take k).map .parse) s = .next t ∧ t.pst = .awaitStart) ∧
  (∀ (s : State) (b c : Byte), s.params.resyncReexamine = false →
    ∃ k ≤ 2, ∃ t, execAll (([b, c].take k).map .pack) s = .next t ∧ t.ast = .aStart)

/-- R188: the length that governs a frame is LEN at its start marker: with a frame in progress (and, outside COLLECTING,
P_RESYNC_REEXAMINE = 0) a SETLEN before a byte and the same SETLEN after it leave the same state, the order of the two
answers apart. -/
def Obligations.LengthLatchedAtStart : Prop :=
  ∀ (n b : Byte) (s : State), DeframerInv s →
    (s.pst = .collecting ∨ (s.pst ≠ .awaitStart ∧ s.params.resyncReexamine = false)) →
    ∃ t u, execAll [.setlen n, .parse b] s = .next t ∧ execAll [.parse b, .setlen n] s = .next u ∧
      { t with responses := [] } = { u with responses := [] }

/-- R187: outside COLLECTING no operation changes RXPAY; and the step that leaves AWAIT_START for COLLECTING clears FV
and sets PCOUNT to 0, so that the first collected byte goes to RXPAY[0]. -/
def Obligations.PayloadKeptUntilCollecting : Prop :=
  ∀ (i : Instr) (s t : State), exec i s = .next t →
    (s.pst ≠ .collecting → ∀ k, t.byteAt .rxpay k = s.byteAt .rxpay k) ∧
    (s.pst = .awaitStart → t.pst ≠ .awaitStart → t.fv = false ∧ t.pcount = 0)

/-! ## The ack recognizer (spec/41_deframer.md) -/

/-- R178, R179: PACK follows the ack recognizer's three states, answers ACK exactly when AK2 completes an ack frame, and
changes AST only. -/
def Obligations.PackFollowsRecognizer : Prop :=
  ∀ (b : Byte) (s : State),
    ∃ t, exec (.pack b) s = .next t ∧
      SameFifo s t ∧ SameIngress s t ∧ SameDeframer s t ∧ SameTransmit s t ∧ SameEnvironment s t ∧
      match s.ast with
      | .aStart =>
        Answered .ok (b.setWidth 16) s t ∧ t.ast = if b = startMarker then .aGotSm else .aStart
      | .aGotSm =>
        Answered .ok (b.setWidth 16) s t ∧ t.ast = if b = ackByte1 then .aGotAk1 else ackResynced b s
      | .aGotAk1 =>
        if b = ackByte2 then Answered .ack (b.setWidth 16) s t ∧ t.ast = .aStart
        else Answered .ok (b.setWidth 16) s t ∧ t.ast = ackResynced b s

/-- R180: a PACKF on a FIFO that holds bytes does exactly what PACK does with the byte at RDIDX in the state without
that byte, and answers the same. -/
def Obligations.PackfStepsOnFifoHead : Prop :=
  ∀ s : State, s.fill ≠ 0 → s.rdIdx < s.params.pCap →
    ∃ t, exec .packf s = .next t ∧ exec (.pack (s.byteAt .fifo s.rdIdx)) (fifoAdvanced s) = .next t

/-- R178, R179: from A_START the bytes 24 2A 25 are answered OK, OK, ACK for either value of P_RESYNC_REEXAMINE; the
bytes 24 24 2A 25 are answered ACK at the last byte exactly when it is 1. -/
def Obligations.AckFrameRecognized : Prop :=
  ∀ s : State, s.ast = .aStart →
    (∃ t, execAll [.pack 0x24, .pack 0x2A, .pack 0x25] s = .next t ∧ t.ast = .aStart ∧
      t.responses = s.responses ++ [(s.port, 0x00000024#32), (s.port, 0x0000002A#32), (s.port, 0x20000025#32)]) ∧
    (∃ t, execAll [.pack 0x24, .pack 0x24, .pack 0x2A, .pack 0x25] s = .next t ∧ t.ast = .aStart ∧
      t.responses = s.responses ++ [(s.port, 0x00000024#32), (s.port, 0x00000024#32), (s.port, 0x0000002A#32),
        (s.port, if s.params.resyncReexamine then 0x20000025#32 else 0x00000025#32)])

/-! ## The framer and the byte pump (spec/42_framer_tx.md) -/

/-- R211: WRPAY to an index below 255 writes that entry of TXPAY, answers OK and changes nothing else, the wire image
included. -/
def Obligations.WrpayStagesByte : Prop :=
  ∀ (a d : Byte) (s : State), a ≠ 255 →
    ∃ t, exec (.wrpay a d) s = .next t ∧ Answered .ok 0 s t ∧
      t.byteAt .txpay a.toNat = d ∧ (∀ i, i ≠ a.toNat → t.byteAt .txpay i = s.byteAt .txpay i) ∧
      (∀ i, t.byteAt .txw i = s.byteAt .txw i) ∧
      t.txLen = s.txLen ∧ t.txCur = s.txCur ∧ t.txAct = s.txAct ∧ t.emitted = s.emitted ∧
      SameFifo s t ∧ SameIngress s t ∧ SameDeframer s t ∧ t.ast = s.ast ∧ SameEnvironment s t

/-- R212: with TXACT = 0 BUILD n puts SM, TXPAY[0 .. n-1], EM1, EM2 into TXW, leaves the entries above, sets TXLEN to
n + 3, TXCUR to 0 and TXACT to 1, answers OK and changes nothing else. -/
def Obligations.BuildComposesFrame : Prop :=
  ∀ (n : Byte) (s : State), s.txAct = false →
    ∃ t, exec (.build n) s = .next t ∧ Answered .ok 0 s t ∧
      t.byteAt .txw 0 = startMarker ∧ (∀ k < n.toNat, t.byteAt .txw (1 + k) = s.byteAt .txpay k) ∧
      t.byteAt .txw (n.toNat + 1) = endMarker1 ∧ t.byteAt .txw (n.toNat + 2) = endMarker2 ∧
      (∀ j, n.toNat + 3 ≤ j → t.byteAt .txw j = s.byteAt .txw j) ∧
      t.txLen.toNat = n.toNat + 3 ∧ t.txCur = 0 ∧ t.txAct = true ∧
      (∀ i, t.byteAt .txpay i = s.byteAt .txpay i) ∧ t.emitted = s.emitted ∧
      SameFifo s t ∧ SameIngress s t ∧ SameDeframer s t ∧ t.ast = s.ast ∧ SameEnvironment s t

/-- R213: with TXACT = 0 BUILDACK puts 24 2A 25 into TXW, leaves the entries above, sets TXLEN to 3, TXCUR to 0 and
TXACT to 1, answers OK and changes nothing else. -/
def Obligations.BuildackComposesAck : Prop :=
  ∀ s : State, s.txAct = false →
    ∃ t, exec .buildack s = .next t ∧ Answered .ok 0 s t ∧
      t.byteAt .txw 0 = 0x24 ∧ t.byteAt .txw 1 = 0x2A ∧ t.byteAt .txw 2 = 0x25 ∧
      (∀ j, 3 ≤ j → t.byteAt .txw j = s.byteAt .txw j) ∧
      t.txLen = 3 ∧ t.txCur = 0 ∧ t.txAct = true ∧
      (∀ i, t.byteAt .txpay i = s.byteAt .txpay i) ∧ t.emitted = s.emitted ∧
      SameFifo s t ∧ SameIngress s t ∧ SameDeframer s t ∧ t.ast = s.ast ∧ SameEnvironment s t

/-- R212, R213, R261: while a transmission is active BUILD and BUILDACK answer BUSY and change nothing. -/
def Obligations.BusyRefusesBuild : Prop :=
  ∀ (i : Instr) (s : State), (i = .buildack ∨ ∃ n, i = .build n) → s.txAct = true →
    ∃ t, exec i s = .next t ∧ Answered .busy 0 s t ∧ SameBlock s t

/-- R214: with TXACT = 1 and a writable transport TXSTEP hands TXW[TXCUR] to `emit` and answers it: TX_DONE, TXCUR 0 and
TXACT 0 at the last byte, else OK and TXCUR one further; nothing else changes. -/
def Obligations.TxstepSendsByte : Prop :=
  ∀ s : State, s.txAct = true → s.txWritable = true → s.txCur.toNat < 258 →
    ∃ t, exec .txstep s = .next t ∧ t.emitted = s.emitted ++ [s.byteAt .txw s.txCur.toNat] ∧
      (if s.txCur + 1 = s.txLen then
        Answered .txDone ((s.byteAt .txw s.txCur.toNat).setWidth 16) s t ∧ t.txCur = 0 ∧ t.txAct = false
      else
        Answered .ok ((s.byteAt .txw s.txCur.toNat).setWidth 16) s t ∧ t.txCur = s.txCur + 1 ∧ t.txAct = true) ∧
      t.txLen = s.txLen ∧ (∀ i, t.byteAt .txw i = s.byteAt .txw i) ∧ (∀ i, t.byteAt .txpay i = s.byteAt .txpay i) ∧
      SameFifo s t ∧ SameIngress s t ∧ SameDeframer s t ∧ t.ast = s.ast ∧ SameEnvironment s t

/-- R214, R216, R264: TXSTEP with TXACT = 0 answers TX_IDLE whatever the transport says; with TXACT = 1 and a transport
that is not writable it answers TX_NOT_READY; neither changes anything. -/
def Obligations.TxstepWithoutSending : Prop :=
  ∀ s : State,
    (s.txAct = false → ∃ t, exec .txstep s = .next t ∧ Answered .txIdle 0 s t ∧ SameBlock s t) ∧
    (s.txAct = true → s.txWritable = false →
      ∃ t, exec .txstep s = .next t ∧ Answered .txNotReady 0 s t ∧ SameBlock s t)

/-- R215: after a BUILD n or BUILDACK that is accepted, any sequence of TXSTEPs with any readiness draws hands to `emit`
exactly the first bytes of the wire image, in order, one for each ready draw, and the transmitter is idle again exactly
when all of them are sent. -/
def Obligations.PumpSendsWireImage : Prop :=
  ∀ (s : State) (writable : Bool) (draws : List Bool), s.txAct = false →
    (∀ n : Byte, ∃ t,
      performAll (.cmdWord (encode (.build n)) writable :: draws.map fun w => .cmdWord (encode .txstep) w) s = .next t ∧
      t.emitted = s.emitted ++
        (frameBytes ((List.range n.toNat).map fun k => s.byteAt .txpay k)).take (draws.count true) ∧
      (t.txAct = false ↔ n.toNat + 3 ≤ draws.count true)) ∧
    (∃ t,
      performAll (.cmdWord (encode .buildack) writable :: draws.map fun w => .cmdWord (encode .txstep) w) s = .next t ∧
      t.emitted = s.emitted ++ ([0x24, 0x2A, 0x25] : List Byte).take (draws.count true) ∧
      (t.txAct = false ↔ 3 ≤ draws.count true))

/-- R217: while a transmission is active no operation changes the wire image or TXLEN, only the TXSTEP that sends the last
byte ends it, and BUILD and BUILDACK are refused with BUSY. -/
def Obligations.TransmissionNotAbandoned : Prop :=
  ∀ (i : Instr) (s t : State), s.txAct = true → exec i s = .next t →
    (t.txAct = false → i = .txstep ∧ s.txWritable = true ∧ s.txCur + 1 = s.txLen) ∧
    ((i = .buildack ∨ ∃ n, i = .build n) → Answered .busy 0 s t ∧ SameBlock s t) ∧
    t.txLen = s.txLen ∧ ∀ k, t.byteAt .txw k = s.byteAt .txw k

/-! ## Control (spec/43_control.md) -/

/-- R240: NOP answers OK and changes nothing. -/
def Obligations.NopOnlyAnswers : Prop :=
  ∀ s : State, ∃ t, exec .nop s = .next t ∧ Answered .ok 0 s t ∧ SameBlock s t

/-- R242, R53 to R55: RDREG reads the register map, every field at its place and every other bit 0, and changes
nothing. -/
def Obligations.RdregReadsRegisterMap : Prop :=
  ∀ (s : State) (a : Byte) (v : Nat),
    (a, v) ∈ registerMap s →
    ∃ t, exec (.rdreg a) s = .next t ∧ Answered .ok (BitVec.ofNat 16 v) s t ∧ SameBlock s t

/-- R71, R181, R211, R242: index 255 in RDPAY and WRPAY and the addresses 0x0B to 0xFF in RDREG are answered RANGE with
DATA 0, and nothing changes. -/
def Obligations.OutOfRangeOnlyAnswers : Prop :=
  ∀ (i : Instr) (s : State),
    (i = .rdpay 255 ∨ (∃ d, i = .wrpay 255 d) ∨ ∃ a : Byte, 0x0B ≤ a.toNat ∧ i = .rdreg a) →
    ∃ t, exec i s = .next t ∧ Answered .range 0 s t ∧ SameBlock s t

/-- 10_state.md's summary table (R30, R243): each register, space and stream changes only through the operations that its
row names; the configuration and the environment change through none. -/
def Obligations.RegistersWrittenByNamedOperations : Prop :=
  ∀ (i : Instr) (s t : State), exec i s = .next t →
    (t.rdIdx ≠ s.rdIdx → i = .pop ∨ i = .parsef ∨ i = .packf) ∧
    (t.wrIdx ≠ s.wrIdx → ∃ d, i = .push d) ∧
    (t.fill ≠ s.fill → (∃ d, i = .push d) ∨ i = .pop ∨ i = .parsef ∨ i = .packf) ∧
    (t.armed ≠ s.armed → i = .detach ∨ i = .rearm) ∧
    (t.dpend ≠ s.dpend → i = .detach ∨ i = .rearm) ∧
    (t.inb ≠ s.inb → (∃ d, i = .push d) ∨ i = .detach) ∧
    (t.len ≠ s.len → ∃ n, i = .setlen n) ∧
    (t.flen ≠ s.flen ∨ t.pcount ≠ s.pcount ∨ t.pst ≠ s.pst ∨ t.fv ≠ s.fv → (∃ d, i = .parse d) ∨ i = .parsef) ∧
    (t.ast ≠ s.ast → (∃ d, i = .pack d) ∨ i = .packf) ∧
    (t.txLen ≠ s.txLen → (∃ n, i = .build n) ∨ i = .buildack) ∧
    (t.txCur ≠ s.txCur ∨ t.txAct ≠ s.txAct → (∃ n, i = .build n) ∨ i = .buildack ∨ i = .txstep) ∧
    (∀ k, t.byteAt .fifo k ≠ s.byteAt .fifo k → ∃ d, i = .push d) ∧
    (∀ k, t.byteAt .rxpay k ≠ s.byteAt .rxpay k → (∃ d, i = .parse d) ∨ i = .parsef) ∧
    (∀ k, t.byteAt .txpay k ≠ s.byteAt .txpay k → ∃ a d, i = .wrpay a d) ∧
    (∀ k, t.byteAt .txw k ≠ s.byteAt .txw k → (∃ n, i = .build n) ∨ i = .buildack) ∧
    (t.emitted ≠ s.emitted → i = .txstep) ∧
    SameEnvironment s t

/-! ## Reset, invariants and the whole machine (spec/10_state.md, spec/70_reset_and_hazards.md) -/

/-- R290, R292: the reset input sets every register to its reset value, holds a drawn byte in every entry of every
space, emits nothing and answers nothing, whatever was in progress. That it keeps the configuration and the environment
and draws the bytes anew is the model's choice (log 15). -/
def Obligations.ResetEventRestores : Prop :=
  ∀ s : State, ∃ t, performEvent .reset s = .next t ∧
    t.rdIdx = 0 ∧ t.wrIdx = 0 ∧ t.fill = 0 ∧ t.armed = false ∧ t.dpend = false ∧ t.inb = false ∧
    t.len = 0 ∧ t.flen = 0 ∧ t.pcount = 0 ∧ t.pst = .awaitStart ∧ t.fv = false ∧ t.ast = .aStart ∧
    t.txLen = 0 ∧ t.txCur = 0 ∧ t.txAct = false ∧
    statusView t = 0 ∧ pstateView t = 0 ∧
    (∀ sp i, t.byteAt sp i = Config.drawnByte (s.drawEpoch + 1) sp i) ∧
    t.emitted = s.emitted ∧ t.responses = s.responses ∧ t.params = s.params ∧ t.rxBytes = s.rxBytes ∧
    t.events = s.events

/-- R290: the state after reset meets the invariants of R36, R40, R44 and R51, those on written entries and on the form of
the wire image, and has every cell of every space inside its size (R70). Its clause on the spaces also says that each is in
canonical form, of which the spec says nothing: that form is the model's choice (log 19). -/
def Obligations.ResetMeetsInvariants : Prop :=
  Inv State.reset ∧ MemoryInv State.reset ∧ FifoWritten State.reset ∧ PayloadWritten State.reset ∧
    ImageWritten State.reset ∧ ImageForm State.reset

/-- R35, R36: every step keeps the FIFO's registers in range and WRIDX at (RDIDX + FILL) mod P_CAP. -/
def Obligations.StepKeepsFifoInv : Prop :=
  ∀ s t : State, FifoInv s → step s = .next t → FifoInv t

/-- R40: every step keeps ARMED and DPEND exclusive and INB within ARMED. -/
def Obligations.StepKeepsIngressInv : Prop :=
  ∀ s t : State, IngressInv s → step s = .next t → IngressInv t

/-- R44: every step keeps PCOUNT below FLEN in COLLECTING and equal to it in AWAIT_END1 and AWAIT_END2. -/
def Obligations.StepKeepsDeframerInv : Prop :=
  ∀ s t : State, DeframerInv s → step s = .next t → DeframerInv t

/-- R50, R51: every step keeps TXCUR below TXLEN while TXACT = 1 and 0 otherwise, and TXLEN 0 or 3 to 258. -/
def Obligations.StepKeepsTransmitInv : Prop :=
  ∀ s t : State, TransmitInv s → step s = .next t → TransmitInv t

/-- R70: every step keeps every cell of every space inside the space's size, and every space in canonical form. R70 says
nothing of a form: that is the model's choice (log 19). -/
def Obligations.StepKeepsMemoryInv : Prop :=
  ∀ s t : State, MemoryInv s → step s = .next t → MemoryInv t

/-- R45, R49, R147: every step keeps written the FIFO's entries, the payload collected or delivered, and the wire image. -/
def Obligations.StepKeepsEntriesWritten : Prop :=
  ∀ s t : State, FifoInv s → DeframerInv s → FifoWritten s → PayloadWritten s → ImageWritten s → step s = .next t →
    FifoWritten t ∧ PayloadWritten t ∧ ImageWritten t

/-- R100, R101, R215: every step keeps the wire image a frame of at most 255 payload bytes or the ack frame. -/
def Obligations.StepKeepsImageForm : Prop :=
  ∀ s t : State, ImageForm s → step s = .next t → ImageForm t

/-- R260, R277: the block never stops: in every state that meets the registers' invariants every step, whatever the
event, answers a next state. -/
def Obligations.NoStepFaults : Prop :=
  ∀ s : State, Inv s → ∃ t, step s = .next t

/-- R36, R40: in every state reached from reset, for every capacity, by any words, turns, arrivals and resets:
WRIDX = (RDIDX + FILL) mod P_CAP, so that RDIDX = WRIDX exactly when FILL is 0 or P_CAP; not both ARMED and DPEND; INB
implies ARMED. -/
def Obligations.ReachableIngressRegisters : Prop :=
  ∀ (c : Params) (es : List Event) (t : State), c.wf → performAll es { State.reset with params := c } = .next t →
    t.wrIdx = (t.rdIdx + t.fill) % t.params.pCap ∧
    (t.rdIdx = t.wrIdx ↔ t.fill = 0 ∨ t.fill = t.params.pCap) ∧
    ¬(t.armed = true ∧ t.dpend = true) ∧ (t.inb = true → t.armed = true)

/-- R12: `clog2(n)` is the least width of at least 1 whose powers reach `n`, both widths are 9 for P_CAP = 500, and the
FIFO's registers fit their widths. -/
def Obligations.RegistersFitTheirWidths : Prop :=
  (∀ n : Nat, 1 ≤ clog2 n ∧ n ≤ 2 ^ clog2 n ∧ ∀ w, 1 ≤ w → n ≤ 2 ^ w → clog2 n ≤ w) ∧
  (widthIdx Params.hardware = 9 ∧ widthFill Params.hardware = 9) ∧
  (∀ s : State, FifoInv s →
    s.rdIdx < 2 ^ widthIdx s.params ∧ s.wrIdx < 2 ^ widthIdx s.params ∧ s.fill < 2 ^ widthFill s.params)

/-- R274: over the link a peer's transport is handed the bytes the other has emitted, in order, each once: what was
emitted is what was handed over followed by what is in flight, and the byte handed over, the oldest in flight, is a byte
that arrives at that peer's transport. The instances share no state: what one does leaves the other as it is. The bytes in
flight and a link that loses nothing are the model's choice (log 21). -/
def Obligations.LinkCarriesEmittedBytes : Prop :=
  (∀ (e : PeerEvent) (q r : Peers), peersStep e q = .next r →
    q.car.emitted = q.handedToRemote ++ q.toRemote → q.remote.emitted = q.handedToCar ++ q.toCar →
      r.car.emitted = r.handedToRemote ++ r.toRemote ∧ r.remote.emitted = r.handedToCar ++ r.toCar) ∧
  (∀ (q : Peers) (b : Byte) (rest : List Byte) (lost : Bool), q.toCar = b :: rest →
    ∃ r, peersStep (.deliver .car lost) q = .next r ∧ ByteReceived b lost q.car r.car ∧ r.remote = q.remote ∧
      r.toCar = rest ∧ r.handedToCar = q.handedToCar ++ [b] ∧
      r.toRemote = q.toRemote ∧ r.handedToRemote = q.handedToRemote) ∧
  (∀ (q : Peers) (b : Byte) (rest : List Byte) (lost : Bool), q.toRemote = b :: rest →
    ∃ r, peersStep (.deliver .remote lost) q = .next r ∧ ByteReceived b lost q.remote r.remote ∧ r.car = q.car ∧
      r.toRemote = rest ∧ r.handedToRemote = q.handedToRemote ++ [b] ∧
      r.toCar = q.toCar ∧ r.handedToCar = q.handedToCar) ∧
  (∀ (ev : Event) (q r : Peers), isLocalEvent ev = true →
    (peersStep (.act .car ev) q = .next r → performEvent ev q.car = .next r.car ∧ r.remote = q.remote ∧
      r.toCar = q.toCar ∧ r.handedToCar = q.handedToCar ∧ r.handedToRemote = q.handedToRemote) ∧
    (peersStep (.act .remote ev) q = .next r → performEvent ev q.remote = .next r.remote ∧ r.car = q.car ∧
      r.toRemote = q.toRemote ∧ r.handedToRemote = q.handedToRemote ∧ r.handedToCar = q.handedToCar))

/-- R45, R49, R147: where the invariants on written entries hold, POP, PARSEF and PACKF on a FIFO that holds bytes work on a
byte written at RDIDX, TXSTEP sends a byte written at TXCUR, and RDPAY below FLEN reads a written byte while FV = 1. -/
def Obligations.ReadsFindWrittenEntries : Prop :=
  (∀ s : State, FifoInv s → FifoWritten s → s.fill ≠ 0 → ∃ b, s.fifo.read? s.rdIdx = some b ∧
    (∃ t, exec .pop s = .next t ∧ Answered .ok (b.setWidth 16) s t) ∧
    exec .parsef s = exec (.parse b) (fifoAdvanced s) ∧ exec .packf s = exec (.pack b) (fifoAdvanced s)) ∧
  (∀ s : State, TransmitInv s → ImageWritten s → s.txAct = true → s.txWritable = true →
    ∃ b, s.txw.read? s.txCur.toNat = some b ∧ ∃ t, exec .txstep s = .next t ∧ t.emitted = s.emitted ++ [b]) ∧
  (∀ (s : State) (a : Byte), PayloadWritten s → s.fv = true → a.toNat < s.flen.toNat →
    ∃ b, s.rxpay.read? a.toNat = some b ∧
      ∃ t, exec (.rdpay a) s = .next t ∧ Answered .ok (b.setWidth 16) s t)
end

