-- ==== Sys2Proof/Laws/Decode.lean ====
section
/-! SUPPORT. The fields of a command word and the word of given fields are inverse to each other. -/

namespace Sys2Proof

@[simp] theorem fieldsOf_wordOf (f : Fields) : fieldsOf (wordOf f) = f := by
  obtain ⟨op, s, rsv, a, d⟩ := f
  simp only [fieldsOf, wordOf, Fields.mk.injEq]
  refine ⟨?_, ?_, ?_, ?_, ?_⟩ <;> ext i hi <;>
    simp only [BitVec.getElem_extractLsb', BitVec.getLsbD_append]
  · simp [show ¬ 28 + i < 8 by omega, show ¬ 28 + i - 8 < 8 by omega, show ¬ 28 + i - 8 - 8 < 11 by omega,
      show ¬ 28 + i - 8 - 8 - 11 < 1 by omega, show 28 + i - 8 - 8 - 11 - 1 = i by omega, hi]
  · simp [show ¬ 27 + i < 8 by omega, show ¬ 27 + i - 8 < 8 by omega, show ¬ 27 + i - 8 - 8 < 11 by omega,
      show 27 + i - 8 - 8 - 11 = i by omega, hi]
  · simp [show ¬ 16 + i < 8 by omega, show ¬ 16 + i - 8 < 8 by omega, show 16 + i - 8 - 8 = i by omega, hi]
  · simp [show ¬ 8 + i < 8 by omega, show 8 + i - 8 = i by omega, hi]
  · simp [hi]

@[simp] theorem wordOf_fieldsOf (w : Word) : wordOf (fieldsOf w) = w := by
  apply BitVec.eq_of_getLsbD_eq
  intro i hi
  simp only [fieldsOf, wordOf, BitVec.getLsbD_append, BitVec.getLsbD_extractLsb']
  split
  · simp [*]
  · split
    · rename_i h1 h2
      simp only [h2, decide_true, Bool.true_and]
      congr 1; omega
    · split
      · rename_i h1 h2 h3
        simp only [h3, decide_true, Bool.true_and]
        congr 1; omega
      · split
        · rename_i h1 h2 h3 h4
          simp only [h4, decide_true, Bool.true_and]
          congr 1; omega
        · rename_i h1 h2 h3 h4
          rw [decide_eq_true (by omega), Bool.true_and]
          congr 1; omega

theorem word_eq_of_fields {w w' : Word} (h : fieldsOf w = fieldsOf w') : w = w' := by
  rw [← wordOf_fieldsOf w, h, wordOf_fieldsOf]

/-- The mask of R114 acts on each field by itself. -/
theorem wordOf_and_wordOf (f g : Fields) :
    wordOf f &&& wordOf g = wordOf ⟨f.op &&& g.op, f.s &&& g.s, f.rsv &&& g.rsv, f.a &&& g.a, f.d &&& g.d⟩ := by
  apply BitVec.eq_of_getLsbD_eq
  intro i hi
  simp only [wordOf, BitVec.getLsbD_and, BitVec.getLsbD_append]
  repeat' split
  all_goals rfl

theorem wordOf_inj {f g : Fields} : wordOf f = wordOf g ↔ f = g :=
  ⟨fun h => by rw [← fieldsOf_wordOf f, h, fieldsOf_wordOf], fun h => h ▸ rfl⟩

end Sys2Proof
end

