-- ==== Sys2Proof/Laws/State.lean ====
section
/-! SUPPORT. The small lemmas of the named state updates: one for each field of State and each update, so that
no later proof unfolds an update. -/

namespace Sys2Proof.Machine

/-! ## `respond` changes the responses only -/

@[simp] theorem respond_responses (rc : ResultCode) (data : Data) (s : State) :
    (respond rc data s).responses = s.responses ++ [(s.port, responseWord rc data)] := rfl
@[simp] theorem respond_fifo (rc : ResultCode) (data : Data) (s : State) : (respond rc data s).fifo = s.fifo := rfl
@[simp] theorem respond_rdIdx (rc : ResultCode) (data : Data) (s : State) : (respond rc data s).rdIdx = s.rdIdx := rfl
@[simp] theorem respond_wrIdx (rc : ResultCode) (data : Data) (s : State) : (respond rc data s).wrIdx = s.wrIdx := rfl
@[simp] theorem respond_fill (rc : ResultCode) (data : Data) (s : State) : (respond rc data s).fill = s.fill := rfl
@[simp] theorem respond_armed (rc : ResultCode) (data : Data) (s : State) : (respond rc data s).armed = s.armed := rfl
@[simp] theorem respond_dpend (rc : ResultCode) (data : Data) (s : State) : (respond rc data s).dpend = s.dpend := rfl
@[simp] theorem respond_inb (rc : ResultCode) (data : Data) (s : State) : (respond rc data s).inb = s.inb := rfl
@[simp] theorem respond_len (rc : ResultCode) (data : Data) (s : State) : (respond rc data s).len = s.len := rfl
@[simp] theorem respond_flen (rc : ResultCode) (data : Data) (s : State) : (respond rc data s).flen = s.flen := rfl
@[simp] theorem respond_pcount (rc : ResultCode) (data : Data) (s : State) : (respond rc data s).pcount = s.pcount := rfl
@[simp] theorem respond_pst (rc : ResultCode) (data : Data) (s : State) : (respond rc data s).pst = s.pst := rfl
@[simp] theorem respond_fv (rc : ResultCode) (data : Data) (s : State) : (respond rc data s).fv = s.fv := rfl
@[simp] theorem respond_rxpay (rc : ResultCode) (data : Data) (s : State) : (respond rc data s).rxpay = s.rxpay := rfl
@[simp] theorem respond_ast (rc : ResultCode) (data : Data) (s : State) : (respond rc data s).ast = s.ast := rfl
@[simp] theorem respond_txpay (rc : ResultCode) (data : Data) (s : State) : (respond rc data s).txpay = s.txpay := rfl
@[simp] theorem respond_txw (rc : ResultCode) (data : Data) (s : State) : (respond rc data s).txw = s.txw := rfl
@[simp] theorem respond_txLen (rc : ResultCode) (data : Data) (s : State) : (respond rc data s).txLen = s.txLen := rfl
@[simp] theorem respond_txCur (rc : ResultCode) (data : Data) (s : State) : (respond rc data s).txCur = s.txCur := rfl
@[simp] theorem respond_txAct (rc : ResultCode) (data : Data) (s : State) : (respond rc data s).txAct = s.txAct := rfl
@[simp] theorem respond_params (rc : ResultCode) (data : Data) (s : State) : (respond rc data s).params = s.params := rfl
@[simp] theorem respond_drawEpoch (rc : ResultCode) (data : Data) (s : State) : (respond rc data s).drawEpoch = s.drawEpoch := rfl
@[simp] theorem respond_port (rc : ResultCode) (data : Data) (s : State) : (respond rc data s).port = s.port := rfl
@[simp] theorem respond_txWritable (rc : ResultCode) (data : Data) (s : State) : (respond rc data s).txWritable = s.txWritable := rfl
@[simp] theorem respond_rxBytes (rc : ResultCode) (data : Data) (s : State) : (respond rc data s).rxBytes = s.rxBytes := rfl
@[simp] theorem respond_events (rc : ResultCode) (data : Data) (s : State) : (respond rc data s).events = s.events := rfl
@[simp] theorem respond_emitted (rc : ResultCode) (data : Data) (s : State) : (respond rc data s).emitted = s.emitted := rfl

/-! ## `emit` changes the output stream only -/

@[simp] theorem emit_emitted (b : Byte) (s : State) : (emit b s).emitted = s.emitted ++ [b] := rfl
@[simp] theorem emit_fifo (b : Byte) (s : State) : (emit b s).fifo = s.fifo := rfl
@[simp] theorem emit_rdIdx (b : Byte) (s : State) : (emit b s).rdIdx = s.rdIdx := rfl
@[simp] theorem emit_wrIdx (b : Byte) (s : State) : (emit b s).wrIdx = s.wrIdx := rfl
@[simp] theorem emit_fill (b : Byte) (s : State) : (emit b s).fill = s.fill := rfl
@[simp] theorem emit_armed (b : Byte) (s : State) : (emit b s).armed = s.armed := rfl
@[simp] theorem emit_dpend (b : Byte) (s : State) : (emit b s).dpend = s.dpend := rfl
@[simp] theorem emit_inb (b : Byte) (s : State) : (emit b s).inb = s.inb := rfl
@[simp] theorem emit_len (b : Byte) (s : State) : (emit b s).len = s.len := rfl
@[simp] theorem emit_flen (b : Byte) (s : State) : (emit b s).flen = s.flen := rfl
@[simp] theorem emit_pcount (b : Byte) (s : State) : (emit b s).pcount = s.pcount := rfl
@[simp] theorem emit_pst (b : Byte) (s : State) : (emit b s).pst = s.pst := rfl
@[simp] theorem emit_fv (b : Byte) (s : State) : (emit b s).fv = s.fv := rfl
@[simp] theorem emit_rxpay (b : Byte) (s : State) : (emit b s).rxpay = s.rxpay := rfl
@[simp] theorem emit_ast (b : Byte) (s : State) : (emit b s).ast = s.ast := rfl
@[simp] theorem emit_txpay (b : Byte) (s : State) : (emit b s).txpay = s.txpay := rfl
@[simp] theorem emit_txw (b : Byte) (s : State) : (emit b s).txw = s.txw := rfl
@[simp] theorem emit_txLen (b : Byte) (s : State) : (emit b s).txLen = s.txLen := rfl
@[simp] theorem emit_txCur (b : Byte) (s : State) : (emit b s).txCur = s.txCur := rfl
@[simp] theorem emit_txAct (b : Byte) (s : State) : (emit b s).txAct = s.txAct := rfl
@[simp] theorem emit_params (b : Byte) (s : State) : (emit b s).params = s.params := rfl
@[simp] theorem emit_drawEpoch (b : Byte) (s : State) : (emit b s).drawEpoch = s.drawEpoch := rfl
@[simp] theorem emit_port (b : Byte) (s : State) : (emit b s).port = s.port := rfl
@[simp] theorem emit_txWritable (b : Byte) (s : State) : (emit b s).txWritable = s.txWritable := rfl
@[simp] theorem emit_rxBytes (b : Byte) (s : State) : (emit b s).rxBytes = s.rxBytes := rfl
@[simp] theorem emit_events (b : Byte) (s : State) : (emit b s).events = s.events := rfl
@[simp] theorem emit_responses (b : Byte) (s : State) : (emit b s).responses = s.responses := rfl

/-! ## `enterBurst` changes INB only -/

@[simp] theorem enterBurst_inb (s : State) : (enterBurst s).inb = (s.inb || s.armed) := by
  unfold enterBurst; split <;> simp_all
@[simp] theorem enterBurst_fifo (s : State) : (enterBurst s).fifo = s.fifo := by unfold enterBurst; split <;> rfl
@[simp] theorem enterBurst_rdIdx (s : State) : (enterBurst s).rdIdx = s.rdIdx := by unfold enterBurst; split <;> rfl
@[simp] theorem enterBurst_wrIdx (s : State) : (enterBurst s).wrIdx = s.wrIdx := by unfold enterBurst; split <;> rfl
@[simp] theorem enterBurst_fill (s : State) : (enterBurst s).fill = s.fill := by unfold enterBurst; split <;> rfl
@[simp] theorem enterBurst_armed (s : State) : (enterBurst s).armed = s.armed := by unfold enterBurst; split <;> rfl
@[simp] theorem enterBurst_dpend (s : State) : (enterBurst s).dpend = s.dpend := by unfold enterBurst; split <;> rfl
@[simp] theorem enterBurst_len (s : State) : (enterBurst s).len = s.len := by unfold enterBurst; split <;> rfl
@[simp] theorem enterBurst_flen (s : State) : (enterBurst s).flen = s.flen := by unfold enterBurst; split <;> rfl
@[simp] theorem enterBurst_pcount (s : State) : (enterBurst s).pcount = s.pcount := by unfold enterBurst; split <;> rfl
@[simp] theorem enterBurst_pst (s : State) : (enterBurst s).pst = s.pst := by unfold enterBurst; split <;> rfl
@[simp] theorem enterBurst_fv (s : State) : (enterBurst s).fv = s.fv := by unfold enterBurst; split <;> rfl
@[simp] theorem enterBurst_rxpay (s : State) : (enterBurst s).rxpay = s.rxpay := by unfold enterBurst; split <;> rfl
@[simp] theorem enterBurst_ast (s : State) : (enterBurst s).ast = s.ast := by unfold enterBurst; split <;> rfl
@[simp] theorem enterBurst_txpay (s : State) : (enterBurst s).txpay = s.txpay := by unfold enterBurst; split <;> rfl
@[simp] theorem enterBurst_txw (s : State) : (enterBurst s).txw = s.txw := by unfold enterBurst; split <;> rfl
@[simp] theorem enterBurst_txLen (s : State) : (enterBurst s).txLen = s.txLen := by unfold enterBurst; split <;> rfl
@[simp] theorem enterBurst_txCur (s : State) : (enterBurst s).txCur = s.txCur := by unfold enterBurst; split <;> rfl
@[simp] theorem enterBurst_txAct (s : State) : (enterBurst s).txAct = s.txAct := by unfold enterBurst; split <;> rfl
@[simp] theorem enterBurst_params (s : State) : (enterBurst s).params = s.params := by unfold enterBurst; split <;> rfl
@[simp] theorem enterBurst_drawEpoch (s : State) : (enterBurst s).drawEpoch = s.drawEpoch := by unfold enterBurst; split <;> rfl
@[simp] theorem enterBurst_port (s : State) : (enterBurst s).port = s.port := by unfold enterBurst; split <;> rfl
@[simp] theorem enterBurst_txWritable (s : State) : (enterBurst s).txWritable = s.txWritable := by unfold enterBurst; split <;> rfl
@[simp] theorem enterBurst_rxBytes (s : State) : (enterBurst s).rxBytes = s.rxBytes := by unfold enterBurst; split <;> rfl
@[simp] theorem enterBurst_events (s : State) : (enterBurst s).events = s.events := by unfold enterBurst; split <;> rfl
@[simp] theorem enterBurst_responses (s : State) : (enterBurst s).responses = s.responses := by unfold enterBurst; split <;> rfl
@[simp] theorem enterBurst_emitted (s : State) : (enterBurst s).emitted = s.emitted := by unfold enterBurst; split <;> rfl

/-! ## `endBurst` changes the three receive-interrupt bits -/

@[simp] theorem endBurst_armed (s : State) : (endBurst s).armed = false := rfl
@[simp] theorem endBurst_dpend (s : State) : (endBurst s).dpend = true := rfl
@[simp] theorem endBurst_inb (s : State) : (endBurst s).inb = false := rfl
@[simp] theorem endBurst_fifo (s : State) : (endBurst s).fifo = s.fifo := rfl
@[simp] theorem endBurst_rdIdx (s : State) : (endBurst s).rdIdx = s.rdIdx := rfl
@[simp] theorem endBurst_wrIdx (s : State) : (endBurst s).wrIdx = s.wrIdx := rfl
@[simp] theorem endBurst_fill (s : State) : (endBurst s).fill = s.fill := rfl
@[simp] theorem endBurst_len (s : State) : (endBurst s).len = s.len := rfl
@[simp] theorem endBurst_flen (s : State) : (endBurst s).flen = s.flen := rfl
@[simp] theorem endBurst_pcount (s : State) : (endBurst s).pcount = s.pcount := rfl
@[simp] theorem endBurst_pst (s : State) : (endBurst s).pst = s.pst := rfl
@[simp] theorem endBurst_fv (s : State) : (endBurst s).fv = s.fv := rfl
@[simp] theorem endBurst_rxpay (s : State) : (endBurst s).rxpay = s.rxpay := rfl
@[simp] theorem endBurst_ast (s : State) : (endBurst s).ast = s.ast := rfl
@[simp] theorem endBurst_txpay (s : State) : (endBurst s).txpay = s.txpay := rfl
@[simp] theorem endBurst_txw (s : State) : (endBurst s).txw = s.txw := rfl
@[simp] theorem endBurst_txLen (s : State) : (endBurst s).txLen = s.txLen := rfl
@[simp] theorem endBurst_txCur (s : State) : (endBurst s).txCur = s.txCur := rfl
@[simp] theorem endBurst_txAct (s : State) : (endBurst s).txAct = s.txAct := rfl
@[simp] theorem endBurst_params (s : State) : (endBurst s).params = s.params := rfl
@[simp] theorem endBurst_drawEpoch (s : State) : (endBurst s).drawEpoch = s.drawEpoch := rfl
@[simp] theorem endBurst_port (s : State) : (endBurst s).port = s.port := rfl
@[simp] theorem endBurst_txWritable (s : State) : (endBurst s).txWritable = s.txWritable := rfl
@[simp] theorem endBurst_rxBytes (s : State) : (endBurst s).rxBytes = s.rxBytes := rfl
@[simp] theorem endBurst_events (s : State) : (endBurst s).events = s.events := rfl
@[simp] theorem endBurst_responses (s : State) : (endBurst s).responses = s.responses := rfl
@[simp] theorem endBurst_emitted (s : State) : (endBurst s).emitted = s.emitted := rfl

/-! ## `rearmIngress` changes ARMED and DPEND -/

@[simp] theorem rearmIngress_armed (s : State) : (rearmIngress s).armed = true := rfl
@[simp] theorem rearmIngress_dpend (s : State) : (rearmIngress s).dpend = false := rfl
@[simp] theorem rearmIngress_fifo (s : State) : (rearmIngress s).fifo = s.fifo := rfl
@[simp] theorem rearmIngress_rdIdx (s : State) : (rearmIngress s).rdIdx = s.rdIdx := rfl
@[simp] theorem rearmIngress_wrIdx (s : State) : (rearmIngress s).wrIdx = s.wrIdx := rfl
@[simp] theorem rearmIngress_fill (s : State) : (rearmIngress s).fill = s.fill := rfl
@[simp] theorem rearmIngress_inb (s : State) : (rearmIngress s).inb = s.inb := rfl
@[simp] theorem rearmIngress_len (s : State) : (rearmIngress s).len = s.len := rfl
@[simp] theorem rearmIngress_flen (s : State) : (rearmIngress s).flen = s.flen := rfl
@[simp] theorem rearmIngress_pcount (s : State) : (rearmIngress s).pcount = s.pcount := rfl
@[simp] theorem rearmIngress_pst (s : State) : (rearmIngress s).pst = s.pst := rfl
@[simp] theorem rearmIngress_fv (s : State) : (rearmIngress s).fv = s.fv := rfl
@[simp] theorem rearmIngress_rxpay (s : State) : (rearmIngress s).rxpay = s.rxpay := rfl
@[simp] theorem rearmIngress_ast (s : State) : (rearmIngress s).ast = s.ast := rfl
@[simp] theorem rearmIngress_txpay (s : State) : (rearmIngress s).txpay = s.txpay := rfl
@[simp] theorem rearmIngress_txw (s : State) : (rearmIngress s).txw = s.txw := rfl
@[simp] theorem rearmIngress_txLen (s : State) : (rearmIngress s).txLen = s.txLen := rfl
@[simp] theorem rearmIngress_txCur (s : State) : (rearmIngress s).txCur = s.txCur := rfl
@[simp] theorem rearmIngress_txAct (s : State) : (rearmIngress s).txAct = s.txAct := rfl
@[simp] theorem rearmIngress_params (s : State) : (rearmIngress s).params = s.params := rfl
@[simp] theorem rearmIngress_drawEpoch (s : State) : (rearmIngress s).drawEpoch = s.drawEpoch := rfl
@[simp] theorem rearmIngress_port (s : State) : (rearmIngress s).port = s.port := rfl
@[simp] theorem rearmIngress_txWritable (s : State) : (rearmIngress s).txWritable = s.txWritable := rfl
@[simp] theorem rearmIngress_rxBytes (s : State) : (rearmIngress s).rxBytes = s.rxBytes := rfl
@[simp] theorem rearmIngress_events (s : State) : (rearmIngress s).events = s.events := rfl
@[simp] theorem rearmIngress_responses (s : State) : (rearmIngress s).responses = s.responses := rfl
@[simp] theorem rearmIngress_emitted (s : State) : (rearmIngress s).emitted = s.emitted := rfl

/-! ## `startFrame` changes FLEN, PCOUNT, FV and PST -/

@[simp] theorem startFrame_flen (s : State) : (startFrame s).flen = s.len := rfl
@[simp] theorem startFrame_pcount (s : State) : (startFrame s).pcount = 0 := rfl
@[simp] theorem startFrame_fv (s : State) : (startFrame s).fv = false := rfl
@[simp] theorem startFrame_pst (s : State) : (startFrame s).pst = if s.len = 0 then .awaitEnd1 else .collecting := rfl
@[simp] theorem startFrame_fifo (s : State) : (startFrame s).fifo = s.fifo := rfl
@[simp] theorem startFrame_rdIdx (s : State) : (startFrame s).rdIdx = s.rdIdx := rfl
@[simp] theorem startFrame_wrIdx (s : State) : (startFrame s).wrIdx = s.wrIdx := rfl
@[simp] theorem startFrame_fill (s : State) : (startFrame s).fill = s.fill := rfl
@[simp] theorem startFrame_armed (s : State) : (startFrame s).armed = s.armed := rfl
@[simp] theorem startFrame_dpend (s : State) : (startFrame s).dpend = s.dpend := rfl
@[simp] theorem startFrame_inb (s : State) : (startFrame s).inb = s.inb := rfl
@[simp] theorem startFrame_len (s : State) : (startFrame s).len = s.len := rfl
@[simp] theorem startFrame_rxpay (s : State) : (startFrame s).rxpay = s.rxpay := rfl
@[simp] theorem startFrame_ast (s : State) : (startFrame s).ast = s.ast := rfl
@[simp] theorem startFrame_txpay (s : State) : (startFrame s).txpay = s.txpay := rfl
@[simp] theorem startFrame_txw (s : State) : (startFrame s).txw = s.txw := rfl
@[simp] theorem startFrame_txLen (s : State) : (startFrame s).txLen = s.txLen := rfl
@[simp] theorem startFrame_txCur (s : State) : (startFrame s).txCur = s.txCur := rfl
@[simp] theorem startFrame_txAct (s : State) : (startFrame s).txAct = s.txAct := rfl
@[simp] theorem startFrame_params (s : State) : (startFrame s).params = s.params := rfl
@[simp] theorem startFrame_drawEpoch (s : State) : (startFrame s).drawEpoch = s.drawEpoch := rfl
@[simp] theorem startFrame_port (s : State) : (startFrame s).port = s.port := rfl
@[simp] theorem startFrame_txWritable (s : State) : (startFrame s).txWritable = s.txWritable := rfl
@[simp] theorem startFrame_rxBytes (s : State) : (startFrame s).rxBytes = s.rxBytes := rfl
@[simp] theorem startFrame_events (s : State) : (startFrame s).events = s.events := rfl
@[simp] theorem startFrame_responses (s : State) : (startFrame s).responses = s.responses := rfl
@[simp] theorem startFrame_emitted (s : State) : (startFrame s).emitted = s.emitted := rfl

/-! ## `withSpace` changes one space -/

@[simp] theorem withSpace_rdIdx (s : State) (sp : Space) (m : Memory) : (s.withSpace sp m).rdIdx = s.rdIdx := by cases sp <;> rfl
@[simp] theorem withSpace_wrIdx (s : State) (sp : Space) (m : Memory) : (s.withSpace sp m).wrIdx = s.wrIdx := by cases sp <;> rfl
@[simp] theorem withSpace_fill (s : State) (sp : Space) (m : Memory) : (s.withSpace sp m).fill = s.fill := by cases sp <;> rfl
@[simp] theorem withSpace_armed (s : State) (sp : Space) (m : Memory) : (s.withSpace sp m).armed = s.armed := by cases sp <;> rfl
@[simp] theorem withSpace_dpend (s : State) (sp : Space) (m : Memory) : (s.withSpace sp m).dpend = s.dpend := by cases sp <;> rfl
@[simp] theorem withSpace_inb (s : State) (sp : Space) (m : Memory) : (s.withSpace sp m).inb = s.inb := by cases sp <;> rfl
@[simp] theorem withSpace_len (s : State) (sp : Space) (m : Memory) : (s.withSpace sp m).len = s.len := by cases sp <;> rfl
@[simp] theorem withSpace_flen (s : State) (sp : Space) (m : Memory) : (s.withSpace sp m).flen = s.flen := by cases sp <;> rfl
@[simp] theorem withSpace_pcount (s : State) (sp : Space) (m : Memory) : (s.withSpace sp m).pcount = s.pcount := by cases sp <;> rfl
@[simp] theorem withSpace_pst (s : State) (sp : Space) (m : Memory) : (s.withSpace sp m).pst = s.pst := by cases sp <;> rfl
@[simp] theorem withSpace_fv (s : State) (sp : Space) (m : Memory) : (s.withSpace sp m).fv = s.fv := by cases sp <;> rfl
@[simp] theorem withSpace_ast (s : State) (sp : Space) (m : Memory) : (s.withSpace sp m).ast = s.ast := by cases sp <;> rfl
@[simp] theorem withSpace_txLen (s : State) (sp : Space) (m : Memory) : (s.withSpace sp m).txLen = s.txLen := by cases sp <;> rfl
@[simp] theorem withSpace_txCur (s : State) (sp : Space) (m : Memory) : (s.withSpace sp m).txCur = s.txCur := by cases sp <;> rfl
@[simp] theorem withSpace_txAct (s : State) (sp : Space) (m : Memory) : (s.withSpace sp m).txAct = s.txAct := by cases sp <;> rfl
@[simp] theorem withSpace_params (s : State) (sp : Space) (m : Memory) : (s.withSpace sp m).params = s.params := by cases sp <;> rfl
@[simp] theorem withSpace_drawEpoch (s : State) (sp : Space) (m : Memory) : (s.withSpace sp m).drawEpoch = s.drawEpoch := by cases sp <;> rfl
@[simp] theorem withSpace_port (s : State) (sp : Space) (m : Memory) : (s.withSpace sp m).port = s.port := by cases sp <;> rfl
@[simp] theorem withSpace_txWritable (s : State) (sp : Space) (m : Memory) : (s.withSpace sp m).txWritable = s.txWritable := by cases sp <;> rfl
@[simp] theorem withSpace_rxBytes (s : State) (sp : Space) (m : Memory) : (s.withSpace sp m).rxBytes = s.rxBytes := by cases sp <;> rfl
@[simp] theorem withSpace_events (s : State) (sp : Space) (m : Memory) : (s.withSpace sp m).events = s.events := by cases sp <;> rfl
@[simp] theorem withSpace_responses (s : State) (sp : Space) (m : Memory) : (s.withSpace sp m).responses = s.responses := by cases sp <;> rfl
@[simp] theorem withSpace_emitted (s : State) (sp : Space) (m : Memory) : (s.withSpace sp m).emitted = s.emitted := by cases sp <;> rfl
theorem withSpace_space_same (s : State) (sp : Space) (m : Memory) : (s.withSpace sp m).space sp = m := by cases sp <;> rfl
theorem withSpace_space_ne (s : State) (sp sp' : Space) (m : Memory) (h : sp' ≠ sp) :
    (s.withSpace sp m).space sp' = s.space sp' := by cases sp <;> cases sp' <;> first | rfl | exact absurd rfl h

end Sys2Proof.Machine
end

