-- ==== Sys2Proof/Laws/Memory.lean ====
section
/-! SUPPORT. Memory: a write is read back, leaves every other index alone and keeps the canonical form; equal
contents are equal data. -/

namespace Sys2Proof.Machine

theorem Memory.read?_write_same (m : Memory) (i : Nat) (v : Byte) : (m.write i v).read? i = some v := by
  induction m with
  | nil => simp [Memory.write, Memory.read?]
  | cons c m ih =>
    obtain ⟨a, x⟩ := c
    simp only [Memory.write]
    split
    · simp [Memory.read?]
    · split
      · simp [Memory.read?]
      · have hne : ¬ a = i := fun h => by simp_all
        simp [Memory.read?, hne, ih]

theorem Memory.read?_write_ne (m : Memory) (i j : Nat) (v : Byte) (h : j ≠ i) :
    (m.write i v).read? j = m.read? j := by
  induction m with
  | nil => simp [Memory.write, Memory.read?, Ne.symm h]
  | cons c m ih =>
    obtain ⟨a, x⟩ := c
    simp only [Memory.write]
    split
    · simp [Memory.read?, Ne.symm h]
    · split
      · rename_i _ hia
        subst hia
        simp [Memory.read?, Ne.symm h]
      · simp only [Memory.read?, ih]

theorem Memory.read?_write (m : Memory) (i j : Nat) (v : Byte) :
    (m.write i v).read? j = if j = i then some v else m.read? j := by
  split
  · rename_i h; subst h; exact Memory.read?_write_same m j v
  · rename_i h; exact Memory.read?_write_ne m i j v h

/-- The cells of a written memory are the written one and old ones. -/
theorem Memory.mem_write {m : Memory} {i : Nat} {v : Byte} {c : Host.Cell} (h : c ∈ m.write i v) :
    c = (i, v) ∨ c ∈ m := by
  induction m with
  | nil => simpa [Memory.write] using h
  | cons d m ih =>
    obtain ⟨a, x⟩ := d
    simp only [Memory.write] at h
    split at h
    · simpa using h
    · split at h
      · simp only [List.mem_cons] at h ⊢
        rcases h with h | h
        · exact .inl h
        · exact .inr (.inr h)
      · simp only [List.mem_cons] at h ⊢
        rcases h with h | h
        · exact .inr (.inl h)
        · rcases ih h with h | h
          · exact .inl h
          · exact .inr (.inr h)

/-- A write keeps the canonical form. -/
theorem Memory.write_wf {m : Memory} (i : Nat) (v : Byte) (h : m.wf) : (m.write i v).wf := by
  induction m with
  | nil => simp [Memory.write, Memory.wf]
  | cons c m ih =>
    obtain ⟨a, x⟩ := c
    obtain ⟨hlt, hm⟩ := List.pairwise_cons.mp h
    simp only [Memory.write]
    split
    · rename_i hia
      refine List.pairwise_cons.mpr ⟨?_, h⟩
      intro d hd
      rcases List.mem_cons.mp hd with rfl | hd
      · exact hia
      · exact lt_trans hia (hlt d hd)
    · split
      · rename_i hia
        subst hia
        exact List.pairwise_cons.mpr ⟨hlt, hm⟩
      · refine List.pairwise_cons.mpr ⟨?_, ih hm⟩
        intro d hd
        rcases Memory.mem_write hd with rfl | hd
        · show a < i
          omega
        · exact hlt d hd

/-- Every space is in canonical form at reset. -/
theorem reset_space_wf (sp : Space) : (State.reset.space sp).wf := by cases sp <;> exact List.Pairwise.nil

/-- Every space is in canonical form after the reset input. -/
theorem resetBlock_space_wf (s : State) (sp : Space) : ((resetBlock s).space sp).wf := by
  cases sp <;> exact List.Pairwise.nil

/-- A MemWrite keeps every space in canonical form. -/
theorem memWrite_wf {sp sp' : Space} {i : Nat} {v : Byte} {s t : State} (h : memWrite sp i v s = .ok t)
    (hs : (s.space sp').wf) : (t.space sp').wf := by
  unfold memWrite at h
  split at h
  · cases h
    by_cases hsp : sp' = sp
    · subst hsp
      rw [withSpace_space_same]
      exact Memory.write_wf i v hs
    · rwa [withSpace_space_ne _ _ _ _ hsp]
  · cases h

/-- A run of MemWrites keeps every space in canonical form. -/
theorem memWriteRun_wf {sp sp' : Space} {bs : List Byte} {i : Nat} {s t : State} (h : memWriteRun sp i bs s = .ok t)
    (hs : (s.space sp').wf) : (t.space sp').wf := by
  induction bs generalizing i s with
  | nil => cases h; exact hs
  | cons b bs ih =>
    cases hw : memWrite sp i b s with
    | error f => simp [memWriteRun, hw, bind, Except.bind] at h
    | ok u =>
      simp only [memWriteRun, hw, bind, Except.bind] at h
      exact ih h (memWrite_wf hw hs)

/-- A write inside a bound keeps every cell inside it. -/
theorem Memory.write_bound {m : Memory} {n i : Nat} {v : Byte} (hi : i < n) (h : ∀ c ∈ m, c.1 < n) :
    ∀ c ∈ m.write i v, c.1 < n := by
  intro c hc
  rcases Memory.mem_write hc with rfl | hc
  · exact hi
  · exact h c hc

theorem Memory.read?_none_of_lt {m : Memory} {i : Nat} (h : ∀ c ∈ m, i < c.1) : m.read? i = none := by
  induction m with
  | nil => rfl
  | cons c m ih =>
    obtain ⟨a, x⟩ := c
    have ha : i < a := h (a, x) (List.mem_cons_self ..)
    rw [Memory.read?, if_neg (by omega)]
    exact ih fun d hd => h d (List.mem_cons_of_mem _ hd)

/-- Canonical memories with equal contents are equal data. -/
theorem Memory.eq_of_read? {m m' : Memory} (h : m.wf) (h' : m'.wf) (heq : ∀ i, m.read? i = m'.read? i) : m = m' := by
  induction m generalizing m' with
  | nil =>
    cases m' with
    | nil => rfl
    | cons c m' =>
      obtain ⟨a, x⟩ := c
      have := heq a
      simp [Memory.read?] at this
  | cons c m ih =>
    obtain ⟨a, x⟩ := c
    obtain ⟨hlt, hm⟩ := List.pairwise_cons.mp h
    cases m' with
    | nil =>
      have := heq a
      simp [Memory.read?] at this
    | cons d m' =>
      obtain ⟨b, y⟩ := d
      obtain ⟨hlt', hm'⟩ := List.pairwise_cons.mp h'
      have hab : a = b := by
        rcases Nat.lt_trichotomy a b with hab | hab | hab
        · have h1 := heq a
          rw [Memory.read?, if_pos rfl, Memory.read?, if_neg (by omega),
            Memory.read?_none_of_lt fun d hd => lt_trans hab (hlt' d hd)] at h1
          cases h1
        · exact hab
        · have h1 := heq b
          rw [Memory.read?, if_neg (by omega), Memory.read?, if_pos rfl,
            Memory.read?_none_of_lt fun d hd => lt_trans hab (hlt d hd)] at h1
          cases h1
      subst hab
      have hxy : x = y := by
        have h1 := heq a
        rw [Memory.read?, if_pos rfl, Memory.read?, if_pos rfl] at h1
        exact Option.some.inj h1
      subst hxy
      congr 1
      refine ih hm hm' fun i => ?_
      by_cases hi : a = i
      · subst hi
        rw [Memory.read?_none_of_lt hlt, Memory.read?_none_of_lt hlt']
      · have h1 := heq i
        rwa [Memory.read?, if_neg hi, Memory.read?, if_neg hi] at h1

/-- Every byte of every space after a write: the written one, and the old ones elsewhere. -/
theorem byteAt_withSpace_write (s : State) (sp sp' : Space) (i j : Nat) (v : Byte) :
    (s.withSpace sp ((s.space sp).write i v)).byteAt sp' j =
      if sp' = sp ∧ j = i then v else s.byteAt sp' j := by
  unfold State.byteAt
  by_cases hsp : sp' = sp
  · subst hsp
    rw [withSpace_space_same, withSpace_drawEpoch, Memory.read?_write]
    by_cases hj : j = i <;> simp [hj]
  · rw [withSpace_space_ne _ _ _ _ hsp, withSpace_drawEpoch]
    simp [hsp]

end Sys2Proof.Machine
end

