-- ==== Sys2Proof/Laws/Ops.lean ====
section
/-! SUPPORT. What each shared operation can do, said once: when it answers, with what, and that otherwise it
faults. Later proofs cite these and do not unfold the operations. -/

namespace Sys2Proof.Machine

/-! ## The outcomes -/

@[simp] theorem finish_ok (s : State) : finish (.ok s) = .next s := rfl
@[simp] theorem finish_error (f : Fault) : finish (.error f) = .fault f := rfl

theorem finish_eq_next {x : Except Fault State} {t : State} : finish x = .next t ↔ x = .ok t := by
  cases x <;> simp

theorem finish_ne_refused (x : Except Fault State) (r : Refusal) : finish x ≠ .refused r := by
  cases x <;> simp

@[simp] theorem except_bind_ok {α β : Type} (a : α) (f : α → Except Fault β) : (Except.ok a >>= f) = f a := rfl
@[simp] theorem except_bind_error {α β : Type} (e : Fault) (f : α → Except Fault β) :
    ((Except.error e : Except Fault α) >>= f) = .error e := rfl
@[simp] theorem except_pure {α : Type} (a : α) : (pure a : Except Fault α) = .ok a := rfl

theorem except_bind_eq_ok {α β : Type} {x : Except Fault α} {f : α → Except Fault β} {b : β} :
    (x >>= f) = .ok b ↔ ∃ a, x = .ok a ∧ f a = .ok b := by
  cases x <;> simp

/-! ## One byte -/

theorem memRead_ok {sp : Space} {i : Nat} {s : State} (h : i < spaceSize s.params sp) :
    memRead sp i s = .ok (s.byteAt sp i) := if_pos h

theorem memWrite_ok {sp : Space} {i : Nat} {v : Byte} {s : State} (h : i < spaceSize s.params sp) :
    memWrite sp i v s = .ok (s.withSpace sp ((s.space sp).write i v)) := if_pos h

theorem memRead_eq_ok {sp : Space} {i : Nat} {s : State} {b : Byte} :
    memRead sp i s = .ok b ↔ i < spaceSize s.params sp ∧ s.byteAt sp i = b := by
  unfold memRead; split <;> simp [*]

theorem memWrite_eq_ok {sp : Space} {i : Nat} {v : Byte} {s t : State} :
    memWrite sp i v s = .ok t ↔
      i < spaceSize s.params sp ∧ s.withSpace sp ((s.space sp).write i v) = t := by
  unfold memWrite; split <;> simp [*]

/-! ## Runs of bytes -/

theorem memReadRun_ok {sp : Space} {s : State} (n i : Nat) (h : i + n ≤ spaceSize s.params sp) :
    memReadRun sp i n s = .ok ((List.range n).map fun k => s.byteAt sp (i + k)) := by
  induction n generalizing i with
  | zero => rfl
  | succ n ih =>
    rw [memReadRun, memRead_ok (by omega), except_bind_ok, ih (i + 1) (by omega), except_bind_ok, except_pure,
      List.range_succ_eq_map, List.map_cons, List.map_map]
    simp only [Nat.add_zero, Except.ok.injEq, List.cons.injEq, true_and]
    exact List.map_congr_left fun k _ => by simp [Nat.add_assoc, Nat.add_comm 1]

@[simp] theorem withSpace_withSpace (s : State) (sp : Space) (m m' : Memory) :
    (s.withSpace sp m).withSpace sp m' = s.withSpace sp m' := by cases sp <;> rfl

@[simp] theorem withSpace_space (s : State) (sp : Space) : s.withSpace sp (s.space sp) = s := by cases sp <;> rfl

/-- A run of writes inside a space: it answers, changes that space only, leaves there the written bytes and the
old ones elsewhere, and keeps the canonical form and the bound. -/
theorem memWriteRun_ok {sp : Space} (bs : List Byte) (i : Nat) (s : State)
    (h : i + bs.length ≤ spaceSize s.params sp) :
    ∃ m : Memory, memWriteRun sp i bs s = .ok (s.withSpace sp m) ∧
      (∀ j, m.read? j = if i ≤ j ∧ j < i + bs.length then bs[j - i]? else (s.space sp).read? j) ∧
      (SpaceInv s.params sp (s.space sp) → SpaceInv s.params sp m) := by
  induction bs generalizing i s with
  | nil =>
    refine ⟨s.space sp, by simp [memWriteRun], fun j => ?_, id⟩
    rw [if_neg (by simp only [List.length_nil]; omega)]
  | cons b bs ih =>
    simp only [List.length_cons] at h
    obtain ⟨m, hm, hr, hw⟩ := ih (i + 1) (s.withSpace sp ((s.space sp).write i b)) (by simpa using by omega)
    refine ⟨m, ?_, fun j => ?_, fun hs => ?_⟩
    · rw [memWriteRun, memWrite_ok (by omega), except_bind_ok, hm, withSpace_withSpace]
    · rw [hr j, withSpace_space_same, Memory.read?_write]
      simp only [List.length_cons]
      by_cases h1 : i + 1 ≤ j ∧ j < i + 1 + bs.length
      · rw [if_pos h1, if_pos (by omega), show j - i = (j - (i + 1)) + 1 by omega, List.getElem?_cons_succ]
      · rw [if_neg h1]
        by_cases h2 : j = i
        · subst h2; simp
        · rw [if_neg h2, if_neg (by omega)]
    · refine (withSpace_params s sp _ ▸ hw) ?_
      rw [withSpace_space_same]
      exact ⟨Memory.write_wf i b hs.1, Memory.write_bound (by omega) hs.2⟩

/-! ## The FIFO -/

/-- `fifoStore` answers exactly where WRIDX is inside the FIFO, and then stores there, advances WRIDX and counts. -/
theorem fifoStore_eq_ok {d : Byte} {s t : State} :
    fifoStore d s = .ok t ↔ s.wrIdx < s.params.pCap ∧
      t = { s with
        fifo := s.fifo.write s.wrIdx d
        wrIdx := (s.wrIdx + 1) % s.params.pCap
        fill := s.fill + 1 } := by
  simp only [fifoStore, except_bind_eq_ok, memWrite_eq_ok, spaceSize, except_pure, Except.ok.injEq]
  constructor
  · rintro ⟨_, ⟨h, rfl⟩, rfl⟩; exact ⟨h, rfl⟩
  · rintro ⟨h, rfl⟩; exact ⟨_, ⟨h, rfl⟩, rfl⟩

theorem fifoTake_empty {s : State} (h : s.fill = 0) : fifoTake s = .ok none := if_pos h

/-- `fifo_take` on a FIFO that holds bytes: the byte at RDIDX, and the state without it. -/
theorem fifoTake_ok {s : State} (h : s.fill ≠ 0) (hr : s.rdIdx < s.params.pCap) :
    fifoTake s = .ok (some (s.byteAt .fifo s.rdIdx, fifoAdvanced s)) := by
  rw [fifoTake, if_neg h, memRead_ok hr]; rfl

/-- All that `fifo_take` can answer. -/
theorem fifoTake_eq_ok {s : State} {r : Option (Byte × State)} :
    fifoTake s = .ok r ↔ (s.fill = 0 ∧ r = none) ∨
      (s.fill ≠ 0 ∧ s.rdIdx < s.params.pCap ∧ r = some (s.byteAt .fifo s.rdIdx, fifoAdvanced s)) := by
  by_cases h : s.fill = 0
  · simp [fifoTake, h, eq_comm]
  · by_cases hr : s.rdIdx < s.params.pCap
    · rw [fifoTake_ok h hr]; simp [h, hr, eq_comm]
    · simp [fifoTake, h, hr, memRead, spaceSize]

/-! ## The deframer and the ack recognizer -/

/-- `collectByte` answers exactly where PCOUNT is inside RXPAY. -/
theorem collectByte_eq_ok {b : Byte} {s t : State} :
    collectByte b s = .ok t ↔ s.pcount.toNat < 255 ∧
      t = { s with
        rxpay := s.rxpay.write s.pcount.toNat b
        pcount := s.pcount + 1
        pst := if s.pcount + 1 = s.flen then .awaitEnd1 else s.pst } := by
  simp only [collectByte, except_bind_eq_ok, memWrite_eq_ok, spaceSize, except_pure, Except.ok.injEq]
  constructor
  · rintro ⟨_, ⟨h, rfl⟩, rfl⟩; exact ⟨h, rfl⟩
  · rintro ⟨h, rfl⟩; exact ⟨_, ⟨h, rfl⟩, rfl⟩

/-- All that one deframer step can do, by the state it starts in (R170). -/
theorem dstep_eq_ok {b : Byte} {s t : State} {rc : ResultCode} :
    dstep b s = .ok (rc, t) ↔
      (s.pst = .awaitStart ∧ rc = .ok ∧ t = if b = startMarker then startFrame s else s) ∨
      (s.pst = .collecting ∧ rc = .ok ∧ collectByte b s = .ok t) ∨
      (s.pst = .awaitEnd1 ∧ rc = .ok ∧ t = if b = endMarker1 then { s with pst := .awaitEnd2 } else resync b s) ∨
      (s.pst = .awaitEnd2 ∧ b = endMarker2 ∧ rc = .frame ∧ t = { s with pst := .awaitStart, fv := true }) ∨
      (s.pst = .awaitEnd2 ∧ b ≠ endMarker2 ∧ rc = .ok ∧ t = resync b s) := by
  unfold dstep
  cases h : s.pst with
  | awaitStart => simp [eq_comm]
  | collecting =>
    simp only [except_bind_eq_ok, except_pure, Except.ok.injEq, Prod.mk.injEq]
    constructor
    · rintro ⟨u, hu, rfl, rfl⟩; simp [hu]
    · rintro h
      simp only [reduceCtorEq, false_and, true_and, or_false, false_or] at h
      exact ⟨t, h.2, h.1.symm, rfl⟩
  | awaitEnd1 => simp [eq_comm]
  | awaitEnd2 => by_cases hb : b = endMarker2 <;> simp [hb, eq_comm]

/-- All that PARSE and PARSEF can answer: UNDERFLOW on an empty FIFO, or one deframer step on the byte taken. -/
theorem parseFrom_eq_next {src : ByteSource} {s t : State} :
    parseFrom src s = .next t ↔
      (takeByte src s = .ok none ∧ t = respond .underflow 0 s) ∨
      ∃ b s' rc u, takeByte src s = .ok (some (b, s')) ∧ dstep b s' = .ok (rc, u) ∧
        t = respond rc (deframerData rc u.flen b) u := by
  simp only [parseFrom, finish_eq_next, except_bind_eq_ok]
  constructor
  · rintro ⟨r, hr, h⟩
    cases r with
    | none => exact .inl ⟨hr, by simpa [eq_comm] using h⟩
    | some p =>
      obtain ⟨b, s'⟩ := p
      obtain ⟨⟨rc, u⟩, hd, h⟩ := except_bind_eq_ok.mp h
      exact .inr ⟨b, s', rc, u, hr, hd, by simpa [eq_comm] using h⟩
  · rintro (⟨hr, rfl⟩ | ⟨b, s', rc, u, hr, hd, rfl⟩)
    · exact ⟨none, hr, rfl⟩
    · exact ⟨some (b, s'), hr, by simp [hd]⟩

/-- All that PACK and PACKF can answer. -/
theorem packFrom_eq_next {src : ByteSource} {s t : State} :
    packFrom src s = .next t ↔
      (takeByte src s = .ok none ∧ t = respond .underflow 0 s) ∨
      ∃ b s', takeByte src s = .ok (some (b, s')) ∧ t = respond (astep b s').1 (byteData b) (astep b s').2 := by
  simp only [packFrom, finish_eq_next, except_bind_eq_ok]
  constructor
  · rintro ⟨r, hr, h⟩
    cases r with
    | none => exact .inl ⟨hr, by simpa [eq_comm] using h⟩
    | some p =>
      obtain ⟨b, s'⟩ := p
      exact .inr ⟨b, s', hr, by simpa [eq_comm] using h⟩
  · rintro (⟨hr, rfl⟩ | ⟨b, s', hr, rfl⟩)
    · exact ⟨none, hr, rfl⟩
    · exact ⟨some (b, s'), hr, rfl⟩

/-- An ack-recognizer step changes AST only. -/
theorem astep_frame (b : Byte) (s : State) : (astep b s).2 = { s with ast := (astep b s).2.ast } := by
  unfold astep ackResync
  split <;> (repeat' split) <;> rfl

/-! ## The framer -/

@[simp] theorem frameBytes_length (p : List Byte) : (frameBytes p).length = p.length + 3 := by
  simp [frameBytes]

/-- A wire image of at most 258 bytes is loaded: TXW holds it from index 0 and its old bytes above. -/
theorem loadImage_ok (image : List Byte) (s : State) (h : image.length ≤ 258) :
    ∃ m : Memory, loadImage image s =
        .ok { s with txw := m, txLen := BitVec.ofNat 9 image.length, txCur := 0, txAct := true } ∧
      (∀ j, m.read? j = if j < image.length then image[j]? else s.txw.read? j) ∧
      (SpaceInv s.params .txw s.txw → SpaceInv s.params .txw m) := by
  obtain ⟨m, hm, hr, hw⟩ := memWriteRun_ok (sp := .txw) image 0 s (by simpa [spaceSize] using h)
  refine ⟨m, by simp [loadImage, hm, State.withSpace], fun j => ?_, hw⟩
  simpa [State.space] using hr j

/-- The payload BUILD reads: TXPAY's first bytes. -/
theorem stagedPayload_ok (n : Byte) (s : State) :
    memReadRun .txpay 0 n.toNat s = .ok ((List.range n.toNat).map fun k => s.byteAt .txpay k) := by
  have h := memReadRun_ok (sp := .txpay) (s := s) n.toNat 0 (by have := n.isLt; simp only [spaceSize]; omega)
  simpa using h

end Sys2Proof.Machine
end

