-- ==== Sys2Proof/Laws/Meanings.lean ====
section
/-! SUPPORT. What each meaning can answer, said once: one inversion lemma for each operation, in terms of the state it
leaves. Later proofs cite these and do not unfold the meanings. -/

namespace Sys2Proof.Machine

theorem byte_lt_255 {a : Byte} (h : a ≠ 255) : a.toNat < 255 := by
  have h1 := a.isLt
  have h2 : a.toNat ≠ 255 := fun h' => h (BitVec.eq_of_toNat_eq h')
  omega

theorem byteAt_congr {s t : State} {sp : Space} (h : t.space sp = s.space sp) (he : t.drawEpoch = s.drawEpoch) (i : Nat) :
    t.byteAt sp i = s.byteAt sp i := by
  simp [State.byteAt, h, he]

/-- PUSH (R141): an overflow, or the byte stored. -/
theorem execPush_eq_next {d : Byte} {s t : State} :
    execPush d s = .next t ↔
      (s.fill = s.params.pCap ∧ t = respond .overflow 0 (enterBurst s)) ∨
      (s.fill ≠ s.params.pCap ∧ s.wrIdx < s.params.pCap ∧
        t = respond .ok 0 { s with
          inb := s.inb || s.armed
          fifo := s.fifo.write s.wrIdx d
          wrIdx := (s.wrIdx + 1) % s.params.pCap
          fill := s.fill + 1 }) := by
  have he : enterBurst s = { s with inb := s.inb || s.armed } := by
    unfold enterBurst; cases s; split <;> simp_all
  unfold execPush
  split
  · rename_i h; simp [h, eq_comm]
  · rename_i h
    simp only [finish_eq_next, except_bind_eq_ok, fifoStore_eq_ok, he, except_pure, Except.ok.injEq]
    constructor
    · rintro ⟨_, ⟨hw, rfl⟩, rfl⟩; exact .inr ⟨h, hw, rfl⟩
    · rintro (⟨h', -⟩ | ⟨-, hw, rfl⟩)
      · exact absurd h' h
      · exact ⟨_, ⟨hw, rfl⟩, rfl⟩

/-- POP (R143): an underflow, or the byte at RDIDX removed. -/
theorem execPop_eq_next {s t : State} :
    execPop s = .next t ↔
      (s.fill = 0 ∧ t = respond .underflow 0 s) ∨
      (s.fill ≠ 0 ∧ s.rdIdx < s.params.pCap ∧
        t = respond .ok (byteData (s.byteAt .fifo s.rdIdx)) (fifoAdvanced s)) := by
  simp only [execPop, finish_eq_next, except_bind_eq_ok, fifoTake_eq_ok]
  constructor
  · rintro ⟨r, ⟨h, rfl⟩ | ⟨h, hr, rfl⟩, ht⟩
    · exact .inl ⟨h, by simpa [eq_comm] using ht⟩
    · exact .inr ⟨h, hr, by simpa [eq_comm] using ht⟩
  · rintro (⟨h, rfl⟩ | ⟨h, hr, rfl⟩)
    · exact ⟨_, .inl ⟨h, rfl⟩, rfl⟩
    · exact ⟨_, .inr ⟨h, hr, rfl⟩, rfl⟩

/-- The byte a source gives, and the state it leaves: the state itself, or the FIFO advanced. -/
theorem takeByte_eq_some {src : ByteSource} {s s' : State} {b : Byte} (h : takeByte src s = .ok (some (b, s'))) :
    (src = .immediate b ∧ s' = s) ∨
      (src = .fifoHead ∧ s.fill ≠ 0 ∧ s.rdIdx < s.params.pCap ∧ b = s.byteAt .fifo s.rdIdx ∧ s' = fifoAdvanced s) := by
  cases src with
  | immediate d =>
    simp only [takeByte, Except.ok.injEq, Option.some.injEq, Prod.mk.injEq] at h
    exact .inl ⟨by rw [h.1], h.2.symm⟩
  | fifoHead =>
    rcases fifoTake_eq_ok.mp h with ⟨-, h⟩ | ⟨hf, hr, h⟩
    · cases h
    · simp only [Option.some.injEq, Prod.mk.injEq] at h
      exact .inr ⟨rfl, hf, hr, h.1, h.2⟩

/-- One deframer step answers wherever COLLECTING's index is inside RXPAY. -/
theorem dstep_answers (b : Byte) (s : State) (h : s.pst = .collecting → s.pcount.toNat < 255) :
    ∃ rc t, dstep b s = .ok (rc, t) := by
  cases hp : s.pst with
  | awaitStart => exact ⟨_, _, dstep_eq_ok.mpr (.inl ⟨hp, rfl, rfl⟩)⟩
  | collecting => exact ⟨_, _, dstep_eq_ok.mpr (.inr (.inl ⟨hp, rfl, collectByte_eq_ok.mpr ⟨h hp, rfl⟩⟩))⟩
  | awaitEnd1 => exact ⟨_, _, dstep_eq_ok.mpr (.inr (.inr (.inl ⟨hp, rfl, rfl⟩)))⟩
  | awaitEnd2 =>
    by_cases hb : b = endMarker2
    · exact ⟨_, _, dstep_eq_ok.mpr (.inr (.inr (.inr (.inl ⟨hp, hb, rfl, rfl⟩))))⟩
    · exact ⟨_, _, dstep_eq_ok.mpr (.inr (.inr (.inr (.inr ⟨hp, hb, rfl, rfl⟩))))⟩

/-- A deframer step changes PST, FLEN, PCOUNT, FV and RXPAY only. -/
theorem dstep_frame {b : Byte} {s t : State} {rc : ResultCode} (h : dstep b s = .ok (rc, t)) :
    t = { s with pst := t.pst, flen := t.flen, pcount := t.pcount, fv := t.fv, rxpay := t.rxpay } := by
  rcases dstep_eq_ok.mp h with ⟨-, -, rfl⟩ | ⟨-, -, hc⟩ | ⟨-, -, rfl⟩ | ⟨-, -, -, rfl⟩ | ⟨-, -, -, rfl⟩
  · split <;> rfl
  · obtain ⟨-, rfl⟩ := collectByte_eq_ok.mp hc; rfl
  · unfold resync; repeat' split
    all_goals rfl
  · rfl
  · unfold resync; split <;> rfl

/-- PARSE (R176): one deframer step on the byte. -/
theorem execParse_eq_next {d : Byte} {s t : State} :
    execParse d s = .next t ↔
      ∃ rc u, dstep d s = .ok (rc, u) ∧ t = respond rc (deframerData rc u.flen d) u := by
  simp only [execParse, parseFrom_eq_next, takeByte, Except.ok.injEq, reduceCtorEq, false_and, false_or,
    Option.some.injEq, Prod.mk.injEq]
  constructor
  · rintro ⟨_, _, rc, u, ⟨rfl, rfl⟩, hd, rfl⟩; exact ⟨rc, u, hd, rfl⟩
  · rintro ⟨rc, u, hd, rfl⟩; exact ⟨d, s, rc, u, ⟨rfl, rfl⟩, hd, rfl⟩

/-- PARSEF (R177): an underflow, or one deframer step on the byte removed. -/
theorem execParsef_eq_next {s t : State} :
    execParsef s = .next t ↔
      (s.fill = 0 ∧ t = respond .underflow 0 s) ∨
      (s.fill ≠ 0 ∧ s.rdIdx < s.params.pCap ∧ ∃ rc u, dstep (s.byteAt .fifo s.rdIdx) (fifoAdvanced s) = .ok (rc, u) ∧
        t = respond rc (deframerData rc u.flen (s.byteAt .fifo s.rdIdx)) u) := by
  simp only [execParsef, parseFrom_eq_next, takeByte, fifoTake_eq_ok]
  constructor
  · rintro (⟨⟨h, -⟩ | ⟨h, hr, h'⟩, rfl⟩ | ⟨b, s', rc, u, ⟨h, h'⟩ | ⟨h, hr, h'⟩, hd, rfl⟩)
    · exact .inl ⟨h, rfl⟩
    · cases h'
    · cases h'
    · cases h'; exact .inr ⟨h, hr, rc, u, hd, rfl⟩
  · rintro (⟨h, rfl⟩ | ⟨h, hr, rc, u, hd, rfl⟩)
    · exact .inl ⟨.inl ⟨h, trivial⟩, rfl⟩
    · exact .inr ⟨_, _, rc, u, .inr ⟨h, hr, rfl⟩, hd, rfl⟩

/-- PACK (R179): one ack-recognizer step on the byte. -/
theorem execPack_eq (d : Byte) (s : State) :
    execPack d s = .next (respond (astep d s).1 (byteData d) (astep d s).2) := rfl

/-- PACKF (R180): an underflow, or one ack-recognizer step on the byte removed. -/
theorem execPackf_eq_next {s t : State} :
    execPackf s = .next t ↔
      (s.fill = 0 ∧ t = respond .underflow 0 s) ∨
      (s.fill ≠ 0 ∧ s.rdIdx < s.params.pCap ∧
        t = respond (astep (s.byteAt .fifo s.rdIdx) (fifoAdvanced s)).1 (byteData (s.byteAt .fifo s.rdIdx))
          (astep (s.byteAt .fifo s.rdIdx) (fifoAdvanced s)).2) := by
  simp only [execPackf, packFrom_eq_next, takeByte, fifoTake_eq_ok]
  constructor
  · rintro (⟨⟨h, -⟩ | ⟨h, hr, h'⟩, rfl⟩ | ⟨b, s', ⟨h, h'⟩ | ⟨h, hr, h'⟩, rfl⟩)
    · exact .inl ⟨h, rfl⟩
    · cases h'
    · cases h'
    · cases h'; exact .inr ⟨h, hr, rfl⟩
  · rintro (⟨h, rfl⟩ | ⟨h, hr, rfl⟩)
    · exact .inl ⟨.inl ⟨h, trivial⟩, rfl⟩
    · exact .inr ⟨_, _, .inr ⟨h, hr, rfl⟩, rfl⟩

/-- RDPAY (R181): an answer and nothing else. -/
theorem execRdpay_eq (a : Byte) (s : State) :
    execRdpay a s =
      .next (if a = 255 then respond .range 0 s else respond .ok (byteData (s.byteAt .rxpay a.toNat)) s) := by
  by_cases h : a = 255
  · simp [execRdpay, payloadIndex, h]
  · have h' : payloadIndex a = some a.toNat := if_neg h
    rw [execRdpay, h', if_neg h]
    simp only [memRead_ok (show a.toNat < spaceSize s.params .rxpay from byte_lt_255 h), except_bind_ok, except_pure,
      finish_ok]

/-- WRPAY (R211): RANGE, or the byte staged. -/
theorem execWrpay_eq (a d : Byte) (s : State) :
    execWrpay a d s =
      .next (if a = 255 then respond .range 0 s
        else respond .ok 0 { s with txpay := s.txpay.write a.toNat d }) := by
  by_cases h : a = 255
  · simp [execWrpay, payloadIndex, h]
  · have h' : payloadIndex a = some a.toNat := if_neg h
    rw [execWrpay, h', if_neg h]
    simp only [memWrite_ok (show a.toNat < spaceSize s.params .txpay from byte_lt_255 h), except_bind_ok, except_pure,
      finish_ok]
    rfl

/-- A wire image loaded into TXW: what the transmitter and TXW are afterwards. -/
def ImageLoaded (image : List Byte) (s t : State) : Prop :=
  ∃ m : Memory, t = { s with txw := m, txLen := BitVec.ofNat 9 image.length, txCur := 0, txAct := true } ∧
    (∀ j, m.read? j = if j < image.length then image[j]? else s.txw.read? j) ∧
    (SpaceInv s.params .txw s.txw → SpaceInv s.params .txw m)

/-- BUILD (R212): BUSY, or the frame of the staged payload loaded. -/
theorem execBuild_answers (n : Byte) (s : State) :
    ∃ t, execBuild n s = .next t ∧
      ((s.txAct = true ∧ t = respond .busy 0 s) ∨
        (s.txAct = false ∧ ∃ u, t = respond .ok 0 u ∧
          ImageLoaded (frameBytes ((List.range n.toNat).map fun k => s.byteAt .txpay k)) s u)) := by
  have hn := n.isLt
  cases h : s.txAct with
  | true => exact ⟨_, by rw [execBuild, if_pos h], .inl ⟨rfl, rfl⟩⟩
  | false =>
    obtain ⟨m, hm, hr, hw⟩ := loadImage_ok (frameBytes ((List.range n.toNat).map fun k => s.byteAt .txpay k)) s
      (by simp only [frameBytes_length, List.length_map, List.length_range]; omega)
    refine ⟨_, ?_, .inr ⟨rfl, _, rfl, m, rfl, hr, hw⟩⟩
    rw [execBuild, if_neg (by simp [h]), stagedPayload_ok, except_bind_ok, hm, except_bind_ok, except_pure, finish_ok]

/-- BUILDACK (R213): BUSY, or the ack frame loaded. -/
theorem execBuildack_answers (s : State) :
    ∃ t, execBuildack s = .next t ∧
      ((s.txAct = true ∧ t = respond .busy 0 s) ∨
        (s.txAct = false ∧ ∃ u, t = respond .ok 0 u ∧ ImageLoaded ackBytes s u)) := by
  cases h : s.txAct with
  | true => exact ⟨_, by rw [execBuildack, if_pos h], .inl ⟨rfl, rfl⟩⟩
  | false =>
    obtain ⟨m, hm, hr, hw⟩ := loadImage_ok ackBytes s (by decide)
    refine ⟨_, ?_, .inr ⟨rfl, _, rfl, m, rfl, hr, hw⟩⟩
    rw [execBuildack, if_neg (by simp [h]), hm, except_bind_ok, except_pure, finish_ok]

/-- TXSTEP (R214): idle, not ready, or the byte at TXCUR sent. -/
theorem execTxstep_eq_next {s t : State} :
    execTxstep s = .next t ↔
      (s.txAct = false ∧ t = respond .txIdle 0 s) ∨
      (s.txAct = true ∧ s.txWritable = false ∧ t = respond .txNotReady 0 s) ∨
      (s.txAct = true ∧ s.txWritable = true ∧ s.txCur.toNat < 258 ∧
        t = respond (advancePump s).1 (byteData (s.byteAt .txw s.txCur.toNat))
          (emit (s.byteAt .txw s.txCur.toNat) (advancePump s).2)) := by
  unfold execTxstep
  split
  · rename_i ha
    simp only [Host.Outcome.next.injEq, ha, true_and, Bool.false_eq_true, false_and, or_false, eq_comm]
  · rename_i ha
    have ha' : s.txAct = true := by simpa using ha
    split
    · rename_i hw
      simp only [Host.Outcome.next.injEq, ha', hw, Bool.false_eq_true, false_and, and_false,
        true_and, or_false, false_or, eq_comm]
    · rename_i hw
      have hw' : s.txWritable = true := by simpa using hw
      simp only [finish_eq_next, except_bind_eq_ok, memRead_eq_ok, spaceSize, except_pure, Except.ok.injEq, ha', hw',
        Bool.true_eq_false, false_and, and_false, true_and, false_or]
      constructor
      · rintro ⟨_, ⟨hc, rfl⟩, rfl⟩; exact ⟨hc, rfl⟩
      · rintro ⟨hc, rfl⟩; exact ⟨_, ⟨hc, rfl⟩, rfl⟩

/-- The cursor's move (R214): TXCUR and TXACT only. -/
theorem advancePump_eq (s : State) :
    advancePump s =
      if s.txCur + 1 = s.txLen then (.txDone, { s with txCur := 0, txAct := false })
      else (.ok, { s with txCur := s.txCur + 1 }) := rfl

end Sys2Proof.Machine
end

