-- ==== Sys2Proof/Laws/Exec.lean ====
section
/-! SUPPORT. All that one operation can do, said once: the inversion of `exec`. -/

namespace Sys2Proof.Machine

/-- The next states an operation can answer: which registers and cells it writes, and under which conditions. -/
inductive ExecResult : Instr → State → State → Prop
  /-- An answer and nothing else: NOP, RDREG, RDPAY, and every operation that is turned away. -/
  | answered (i : Instr) (rc : ResultCode) (data : Data) (s : State) : ExecResult i s (respond rc data s)
  | overflowed (d : Byte) (s : State) : s.fill = s.params.pCap →
      ExecResult (.push d) s (respond .overflow 0 (enterBurst s))
  | pushed (d : Byte) (s : State) : s.fill ≠ s.params.pCap → s.wrIdx < s.params.pCap →
      ExecResult (.push d) s (respond .ok 0 { s with
        inb := s.inb || s.armed
        fifo := s.fifo.write s.wrIdx d
        wrIdx := (s.wrIdx + 1) % s.params.pCap
        fill := s.fill + 1 })
  | detached (s : State) : ExecResult .detach s (respond .ok 0 (endBurst s))
  | rearmed (s : State) : ExecResult .rearm s (respond .ok 0 (rearmIngress s))
  | lengthSet (n : Byte) (s : State) : ExecResult (.setlen n) s (respond .ok 0 { s with len := n })
  | popped (s : State) (data : Data) : s.fill ≠ 0 → s.rdIdx < s.params.pCap →
      ExecResult .pop s (respond .ok data (fifoAdvanced s))
  | parsed (b : Byte) (s u : State) (rc : ResultCode) (data : Data) : dstep b s = .ok (rc, u) →
      ExecResult (.parse b) s (respond rc data u)
  | parsedHead (b : Byte) (s u : State) (rc : ResultCode) (data : Data) : s.fill ≠ 0 → s.rdIdx < s.params.pCap →
      dstep b (fifoAdvanced s) = .ok (rc, u) → ExecResult .parsef s (respond rc data u)
  | recognized (b : Byte) (s u : State) (rc : ResultCode) (data : Data) : (astep b s).2 = u →
      ExecResult (.pack b) s (respond rc data u)
  | recognizedHead (b : Byte) (s u : State) (rc : ResultCode) (data : Data) : s.fill ≠ 0 → s.rdIdx < s.params.pCap →
      (astep b (fifoAdvanced s)).2 = u → ExecResult .packf s (respond rc data u)
  | staged (a d : Byte) (s : State) : a ≠ 255 →
      ExecResult (.wrpay a d) s (respond .ok 0 { s with txpay := s.txpay.write a.toNat d })
  | frameBuilt (n : Byte) (s u : State) : s.txAct = false →
      ImageLoaded (frameBytes ((List.range n.toNat).map fun k => s.byteAt .txpay k)) s u →
      ExecResult (.build n) s (respond .ok 0 u)
  | ackBuilt (s u : State) : s.txAct = false → ImageLoaded ackBytes s u → ExecResult .buildack s (respond .ok 0 u)
  | byteSent (s : State) (b : Byte) (data : Data) : s.txAct = true → s.txWritable = true → s.txCur.toNat < 258 →
      s.txCur + 1 ≠ s.txLen → ExecResult .txstep s (respond .ok data (emit b { s with txCur := s.txCur + 1 }))
  | lastByteSent (s : State) (b : Byte) (data : Data) : s.txAct = true → s.txWritable = true → s.txCur.toNat < 258 →
      s.txCur + 1 = s.txLen →
      ExecResult .txstep s (respond .txDone data (emit b { s with txCur := 0, txAct := false }))

/-- All that one operation can do. -/
theorem exec_cases {i : Instr} {s t : State} (h : exec i s = .next t) : ExecResult i s t := by
  cases i with
  | nop => cases h; exact .answered ..
  | push d =>
    rcases execPush_eq_next.mp h with ⟨h1, rfl⟩ | ⟨h1, h2, rfl⟩
    exacts [.overflowed _ _ h1, .pushed _ _ h1 h2]
  | detach => cases h; exact .detached ..
  | rearm => cases h; exact .rearmed ..
  | setlen => cases h; exact .lengthSet ..
  | pop =>
    rcases execPop_eq_next.mp h with ⟨h1, rfl⟩ | ⟨h1, h2, rfl⟩
    exacts [.answered .., .popped _ _ h1 h2]
  | parse d =>
    obtain ⟨rc, u, hd, rfl⟩ := execParse_eq_next.mp h
    exact .parsed _ _ _ _ _ hd
  | parsef =>
    rcases execParsef_eq_next.mp h with ⟨h1, rfl⟩ | ⟨h1, h2, rc, u, hd, rfl⟩
    exacts [.answered .., .parsedHead _ _ _ _ _ h1 h2 hd]
  | pack d => cases h; exact .recognized _ _ _ _ _ rfl
  | packf =>
    rcases execPackf_eq_next.mp h with ⟨h1, rfl⟩ | ⟨h1, h2, rfl⟩
    exacts [.answered .., .recognizedHead _ _ _ _ _ h1 h2 rfl]
  | wrpay a d =>
    simp only [exec, execWrpay_eq] at h
    split at h <;> cases h
    exacts [.answered .., .staged _ _ _ (by assumption)]
  | rdpay a =>
    simp only [exec, execRdpay_eq] at h
    split at h <;> cases h
    exacts [.answered .., .answered ..]
  | build n =>
    obtain ⟨t', ht, h'⟩ := execBuild_answers n s
    simp only [exec, ht, Host.Outcome.next.injEq] at h
    subst h
    rcases h' with ⟨-, rfl⟩ | ⟨h1, u, rfl, hu⟩
    exacts [.answered .., .frameBuilt _ _ _ h1 hu]
  | buildack =>
    obtain ⟨t', ht, h'⟩ := execBuildack_answers s
    simp only [exec, ht, Host.Outcome.next.injEq] at h
    subst h
    rcases h' with ⟨-, rfl⟩ | ⟨h1, u, rfl, hu⟩
    exacts [.answered .., .ackBuilt _ _ h1 hu]
  | txstep =>
    rcases execTxstep_eq_next.mp h with ⟨-, rfl⟩ | ⟨-, -, rfl⟩ | ⟨h1, h2, h3, rfl⟩
    · exact .answered ..
    · exact .answered ..
    · rw [advancePump_eq]
      split
      · exact .lastByteSent _ _ _ h1 h2 h3 (by assumption)
      · exact .byteSent _ _ _ h1 h2 h3 (by assumption)
  | rdreg a =>
    simp only [exec, execRdreg] at h
    split at h <;> cases h
    exacts [.answered .., .answered ..]

end Sys2Proof.Machine
end

