-- ==== Sys2Proof/Laws/Step.lean ====
section
/-! SUPPORT. What one event and one step can do, said once: an operation, an illegal word's answer, a change of the
environment alone, or a reset. -/

namespace Sys2Proof.Machine

/-- `t` is `s` but for the environment: what it does next, the port served, the transport's answers and bytes. -/
def EnvChange (s t : State) : Prop :=
  t = { s with events := t.events, port := t.port, txWritable := t.txWritable, rxBytes := t.rxBytes }

theorem EnvChange.refl (s : State) : EnvChange s s := rfl

theorem EnvChange.trans {s t u : State} (h : EnvChange s t) (h' : EnvChange t u) : EnvChange s u := by
  unfold EnvChange at *
  rw [h'] ; rw [h]

/-- What a word on a port does: the operation it spells, or an illegal word's answer. -/
theorem issueWord_eq_next {p : Port} {w : Word} {s t : State} (h : issueWord p w s = .next t) :
    (∃ i, decode p w = .ok i ∧ exec i { s with port := p } = .next t) ∨
      (∃ e, decode p w = .error e ∧ t = respond .illegal 0 { s with port := p }) := by
  unfold issueWord at h
  split at h
  · exact .inl ⟨_, by assumption, h⟩
  · refine .inr ⟨_, by assumption, ?_⟩
    simpa [illegalWord, eq_comm] using h

/-- All that one event can do. -/
theorem performEvent_cases {e : Event} {s t : State} (h : performEvent e s = .next t) :
    (∃ i u, EnvChange s u ∧ exec i u = .next t) ∨
      (∃ u, EnvChange s u ∧ t = respond .illegal 0 u) ∨
      EnvChange s t ∨ (e = .reset ∧ t = resetBlock s) := by
  cases e with
  | cmdWord w writable =>
    rcases issueWord_eq_next h with ⟨i, -, hi⟩ | ⟨e, -, rfl⟩
    · refine .inl ⟨i, _, ?_, hi⟩; rfl
    · refine .inr (.inl ⟨_, ?_, rfl⟩); rfl
  | rxWord w =>
    rcases issueWord_eq_next h with ⟨i, -, hi⟩ | ⟨e, -, rfl⟩
    · refine .inl ⟨i, _, ?_, hi⟩; rfl
    · refine .inr (.inl ⟨_, ?_, rfl⟩); rfl
  | rxfeTurn =>
    simp only [performEvent, rxfeStep] at h
    split at h
    · split at h
      · refine .inl ⟨_, _, ?_, h⟩; rfl
      · split at h
        · refine .inl ⟨_, _, ?_, h⟩; rfl
        · cases h; exact .inr (.inr (.inl rfl))
    · cases h; exact .inr (.inr (.inl rfl))
  | arrive b lost =>
    simp only [performEvent, Host.Outcome.next.injEq] at h
    subst h
    refine .inr (.inr (.inl ?_))
    unfold byteArrives EnvChange
    split <;> rfl
  | reset =>
    simp only [performEvent, Host.Outcome.next.injEq] at h
    exact .inr (.inr (.inr ⟨rfl, h.symm⟩))

/-- All that one step can do. -/
theorem step_cases {s t : State} (h : step s = .next t) :
    (∃ i u, EnvChange s u ∧ exec i u = .next t) ∨
      (∃ u, EnvChange s u ∧ t = respond .illegal 0 u) ∨
      EnvChange s t ∨ (∃ u, EnvChange s u ∧ t = resetBlock u) := by
  unfold step nextEvent at h
  split at h
  · cases h; exact .inr (.inr (.inl rfl))
  · rename_i e rest _
    have he : EnvChange s { s with events := rest } := rfl
    rcases performEvent_cases h with ⟨i, u, hu, hi⟩ | ⟨u, hu, rfl⟩ | hu | ⟨-, rfl⟩
    · exact .inl ⟨i, u, he.trans hu, hi⟩
    · exact .inr (.inl ⟨u, he.trans hu, rfl⟩)
    · exact .inr (.inr (.inl (he.trans hu)))
    · exact .inr (.inr (.inr ⟨_, he, rfl⟩))

end Sys2Proof.Machine
end

