-- ==== Sys2Proof/Laws/Peers.lean ====
section
/-! SUPPORT. The output stream only grows: what an operation, an event and a step of the pair add to it. -/

namespace Sys2Proof.Machine

theorem dstep_emitted {b : Byte} {s u : State} {rc : ResultCode} (h : dstep b s = .ok (rc, u)) :
    u.emitted = s.emitted := by rw [dstep_frame h]

theorem astep_emitted (b : Byte) (s : State) : (astep b s).2.emitted = s.emitted := by rw [astep_frame b s]

/-- An operation sends bytes behind those already sent (R18). -/
theorem exec_emitted {i : Instr} {s t : State} (h : exec i s = .next t) : ∃ sent, t.emitted = s.emitted ++ sent := by
  cases exec_cases h with
  | byteSent _ b => exact ⟨[b], rfl⟩
  | lastByteSent _ b => exact ⟨[b], rfl⟩
  | overflowed => exact ⟨[], by simp⟩
  | parsed _ _ _ _ _ hd => exact ⟨[], by simp [dstep_emitted hd]⟩
  | parsedHead _ _ _ _ _ _ _ hd => exact ⟨[], by simp [dstep_emitted hd, fifoAdvanced]⟩
  | recognized b _ _ _ _ hd => exact ⟨[], by simp [← hd, astep_emitted]⟩
  | recognizedHead b _ _ _ _ _ _ hd => exact ⟨[], by simp [← hd, astep_emitted, fifoAdvanced]⟩
  | frameBuilt _ _ _ _ hu => obtain ⟨m, rfl, -⟩ := hu; exact ⟨[], by simp⟩
  | ackBuilt _ _ _ hu => obtain ⟨m, rfl, -⟩ := hu; exact ⟨[], by simp⟩
  | _ => exact ⟨[], (List.append_nil _).symm⟩

theorem EnvChange.emitted {s t : State} (h : EnvChange s t) : t.emitted = s.emitted := by
  unfold EnvChange at h
  rw [h]

/-- An event sends bytes behind those already sent; a reset takes none back (R292). -/
theorem performEvent_emitted {e : Event} {s t : State} (h : performEvent e s = .next t) :
    ∃ sent, t.emitted = s.emitted ++ sent := by
  rcases performEvent_cases h with ⟨i, u, hu, hi⟩ | ⟨u, hu, rfl⟩ | hu | ⟨-, rfl⟩
  · rw [← hu.emitted]
    exact exec_emitted hi
  · exact ⟨[], by simp [hu.emitted]⟩
  · exact ⟨[], by simp [hu.emitted]⟩
  · exact ⟨[], (List.append_nil _).symm⟩

/-- An arriving byte sends nothing (R8). -/
@[simp] theorem byteArrives_emitted (b : Byte) (lost : Bool) (s : State) : (byteArrives b lost s).emitted = s.emitted := by
  unfold byteArrives
  split <;> rfl

/-- Where an arriving byte is not lost the transport holds it behind its other bytes (R155). -/
theorem byteArrives_kept {b : Byte} {lost : Bool} {s : State}
    (h : s.armed = true ∨ s.params.trxRx = .keep ∨ lost = false) :
    byteArrives b lost s = { s with rxBytes := s.rxBytes ++ [b] } := by
  unfold byteArrives
  rw [if_neg]
  rcases h with h | h | h <;> simp [h]

end Sys2Proof.Machine
end

