-- ==== Sys2Proof/Laws/PerInstr.lean ====
section
/-! SUPPORT. The family EncodingRow: each operation's word spells the row of R114 that bears its mnemonic, and that
row names the ports the operation is legal on. -/

namespace Sys2Proof.Laws

/-- The word of `i` matches the row of its mnemonic, which lists exactly the ports of `i` (R111, R114). -/
def EncodingRow.Statement (i : Instr) : Prop :=
  ∃ r ∈ opcodeTable, r.mnemonic = i.mnemonic ∧ r.matches (encode i) = true ∧
    ∀ p, r.ports.contains p = i.legalOn p

/-- Masks written as words of fields, so that a mask acts field by field. -/
theorem matches_of_fields (r : OpcodeRow) (i : Instr) (m : Fields) (hm : r.mask = wordOf m)
    (h : wordOf ⟨(encodeFields i).op &&& m.op, (encodeFields i).s &&& m.s, (encodeFields i).rsv &&& m.rsv,
      (encodeFields i).a &&& m.a, (encodeFields i).d &&& m.d⟩ = r.pattern) : r.matches (encode i) = true := by
  simp only [OpcodeRow.matches, beq_iff_eq, hm, encode, wordOf_and_wordOf, h]

theorem byte_and_zero (x : Byte) : x &&& 0 = 0 := BitVec.and_zero

theorem port_cases {P : Port → Prop} (hr : P .rx) (hc : P .cmd) : ∀ p, P p
  | .rx => hr
  | .cmd => hc

theorem EncodingRow.nop : EncodingRow.Statement .nop :=
  ⟨⟨.nop, 0x00000000, 0xFFFFFFFF, [.rx, .cmd]⟩, by decide, rfl, by decide,
    port_cases rfl rfl⟩

theorem EncodingRow.push (d : Byte) : EncodingRow.Statement (.push d) :=
  ⟨⟨.push, 0x10000000, 0xFFFFFF00, [.rx]⟩, by decide, rfl, matches_of_fields _ _ ⟨0xF, 1, 0x7FF, 0xFF, 0x0⟩ (by decide) (by simp only [encodeFields, byte_and_zero]; decide),
    port_cases rfl rfl⟩

theorem EncodingRow.detach : EncodingRow.Statement .detach :=
  ⟨⟨.detach, 0x20000000, 0xFFFFFFFF, [.rx]⟩, by decide, rfl, by decide,
    port_cases rfl rfl⟩

theorem EncodingRow.pop : EncodingRow.Statement .pop :=
  ⟨⟨.pop, 0x30000000, 0xFFFFFFFF, [.cmd]⟩, by decide, rfl, by decide,
    port_cases rfl rfl⟩

theorem EncodingRow.rearm : EncodingRow.Statement .rearm :=
  ⟨⟨.rearm, 0x40000000, 0xFFFFFFFF, [.cmd]⟩, by decide, rfl, by decide,
    port_cases rfl rfl⟩

theorem EncodingRow.setlen (d : Byte) : EncodingRow.Statement (.setlen d) :=
  ⟨⟨.setlen, 0x50000000, 0xFFFFFF00, [.cmd]⟩, by decide, rfl, matches_of_fields _ _ ⟨0xF, 1, 0x7FF, 0xFF, 0x0⟩ (by decide) (by simp only [encodeFields, byte_and_zero]; decide),
    port_cases rfl rfl⟩

theorem EncodingRow.parse (d : Byte) : EncodingRow.Statement (.parse d) :=
  ⟨⟨.parse, 0x60000000, 0xFFFFFF00, [.cmd]⟩, by decide, rfl, matches_of_fields _ _ ⟨0xF, 1, 0x7FF, 0xFF, 0x0⟩ (by decide) (by simp only [encodeFields, byte_and_zero]; decide),
    port_cases rfl rfl⟩

theorem EncodingRow.parsef : EncodingRow.Statement .parsef :=
  ⟨⟨.parsef, 0x68000000, 0xFFFFFFFF, [.cmd]⟩, by decide, rfl, by decide,
    port_cases rfl rfl⟩

theorem EncodingRow.pack (d : Byte) : EncodingRow.Statement (.pack d) :=
  ⟨⟨.pack, 0x70000000, 0xFFFFFF00, [.cmd]⟩, by decide, rfl, matches_of_fields _ _ ⟨0xF, 1, 0x7FF, 0xFF, 0x0⟩ (by decide) (by simp only [encodeFields, byte_and_zero]; decide),
    port_cases rfl rfl⟩

theorem EncodingRow.packf : EncodingRow.Statement .packf :=
  ⟨⟨.packf, 0x78000000, 0xFFFFFFFF, [.cmd]⟩, by decide, rfl, by decide,
    port_cases rfl rfl⟩

theorem EncodingRow.wrpay (a d : Byte) : EncodingRow.Statement (.wrpay a d) :=
  ⟨⟨.wrpay, 0x80000000, 0xFFFF0000, [.cmd]⟩, by decide, rfl, matches_of_fields _ _ ⟨0xF, 1, 0x7FF, 0x0, 0x0⟩ (by decide) (by simp only [encodeFields, byte_and_zero]; decide),
    port_cases rfl rfl⟩

theorem EncodingRow.rdpay (a : Byte) : EncodingRow.Statement (.rdpay a) :=
  ⟨⟨.rdpay, 0x90000000, 0xFFFF00FF, [.cmd]⟩, by decide, rfl, matches_of_fields _ _ ⟨0xF, 1, 0x7FF, 0x0, 0xFF⟩ (by decide) (by simp only [encodeFields, byte_and_zero]; decide),
    port_cases rfl rfl⟩

theorem EncodingRow.build (d : Byte) : EncodingRow.Statement (.build d) :=
  ⟨⟨.build, 0xA0000000, 0xFFFFFF00, [.cmd]⟩, by decide, rfl, matches_of_fields _ _ ⟨0xF, 1, 0x7FF, 0xFF, 0x0⟩ (by decide) (by simp only [encodeFields, byte_and_zero]; decide),
    port_cases rfl rfl⟩

theorem EncodingRow.buildack : EncodingRow.Statement .buildack :=
  ⟨⟨.buildack, 0xB0000000, 0xFFFFFFFF, [.cmd]⟩, by decide, rfl, by decide,
    port_cases rfl rfl⟩

theorem EncodingRow.txstep : EncodingRow.Statement .txstep :=
  ⟨⟨.txstep, 0xC0000000, 0xFFFFFFFF, [.cmd]⟩, by decide, rfl, by decide,
    port_cases rfl rfl⟩

theorem EncodingRow.rdreg (a : Byte) : EncodingRow.Statement (.rdreg a) :=
  ⟨⟨.rdreg, 0xD0000000, 0xFFFF00FF, [.cmd]⟩, by decide, rfl, matches_of_fields _ _ ⟨0xF, 1, 0x7FF, 0x0, 0xFF⟩ (by decide) (by simp only [encodeFields, byte_and_zero]; decide),
    port_cases rfl rfl⟩

end Sys2Proof.Laws
end

