-- ==== Sys2Proof/Tests/Slice0.lean ====
section
/-! SUPPORT. Tests: what is ill formed, the words of spec/30_encoding.md, one step of each operation from the vectors
of spec/95_test_vectors.md, and for each statement with hypotheses a concrete state and operands that meet them. -/

namespace Sys2Proof.Tests

open Sys2Proof Sys2Proof.Machine

/-! ## Small states -/

/-- A capacity of 3 and the breaking byte discarded. -/
def small : Params := ⟨3, false, .keep⟩

/-- A capacity of 3, the breaking byte looked at again, a lossy transport. -/
def smallReexamine : Params := ⟨3, true, .lossy⟩

/-- Reset with the small parameters. -/
def start : State := { State.reset with params := small }

/-- Reset with the small parameters and P_RESYNC_REEXAMINE = 1. -/
def startReexamine : State := { State.reset with params := smallReexamine }

/-- A full FIFO, armed, in a burst. -/
def full : State :=
  { start with fifo := [(0, 0x24), (1, 0x2A), (2, 0x25)], rdIdx := 1, wrIdx := 1, fill := 3, armed := true, inb := true }

/-- A FIFO whose one byte is its last entry. -/
def atEdge : State := { start with fifo := [(2, 0x24)], rdIdx := 2, wrIdx := 0, fill := 1, dpend := true }

/-- Two of three payload bytes collected. -/
def collecting : State :=
  { start with len := 3, flen := 3, pcount := 2, pst := .collecting, rxpay := [(0, 0x41), (1, 0x42)] }

/-- A frame of one byte before its first end marker. -/
def beforeEnd1 : State := { collecting with len := 1, flen := 1, pcount := 1, pst := .awaitEnd1 }

/-- A frame of one byte before its second end marker. -/
def beforeEnd2 : State := { beforeEnd1 with pst := .awaitEnd2 }

/-- The ack frame before its last byte. -/
def sending : State :=
  { start with txw := [(0, 0x24), (1, 0x2A), (2, 0x25)], txLen := 3, txCur := 2, txAct := true, txWritable := true }

/-- The state an outcome holds. -/
def nextOf (o : Host.Outcome State Fault Refusal) : Option State :=
  match o with
  | .next t => some t
  | _ => none

/-- The answer an operation gives from a state that has answered nothing. -/
def answer (i : Instr) (s : State) : Option Word := (nextOf (exec i s)).bind fun t => t.responses.getLast?.map (·.2)

/-- The decoder's answer, errors apart. -/
def decoded (p : Port) (w : Word) : Option Instr :=
  match decode p w with
  | .ok i => some i
  | .error _ => none

/-! ## Well-formedness -/

theorem test_ill_formed_port : (Instr.push 1).legalOn .cmd = false ∧ Instr.detach.legalOn .cmd = false ∧
    Instr.pop.legalOn .rx = false ∧ Instr.rearm.legalOn .rx = false ∧ (Instr.setlen 1).legalOn .rx = false ∧
    (Instr.parse 1).legalOn .rx = false ∧ Instr.parsef.legalOn .rx = false ∧ (Instr.pack 1).legalOn .rx = false ∧
    Instr.packf.legalOn .rx = false ∧ (Instr.wrpay 1 1).legalOn .rx = false ∧ (Instr.rdpay 1).legalOn .rx = false ∧
    (Instr.build 1).legalOn .rx = false ∧ Instr.buildack.legalOn .rx = false ∧ Instr.txstep.legalOn .rx = false ∧
    (Instr.rdreg 1).legalOn .rx = false := by decide

theorem test_ill_formed_capacity : ¬ (Params.wf ⟨0, false, .keep⟩) ∧ ¬ (Params.wf ⟨65536, false, .keep⟩) := by decide

theorem test_well_formed_capacity : Params.wf ⟨1, false, .keep⟩ ∧ Params.wf ⟨65535, true, .lossy⟩ := by decide

theorem test_ill_formed_ldpay : ldpayFits 254 [1, 2] = false ∧ ldpayFits 255 [1] = false ∧ ldpayFits 0 [] = false := by
  decide

theorem test_ill_formed_memory : ¬ (Memory.wf [(1, 0), (0, 0)]) ∧ ¬ (Memory.wf [(1, 0), (1, 7)]) := by decide

/-! ## Decoding: words written out from R114's patterns and R132 -/

theorem test_decode_ingress : decoded .rx 0x10000041 = some (.push 0x41) ∧ decoded .rx 0x20000000 = some .detach ∧
    decoded .cmd 0x30000000 = some .pop ∧ decoded .cmd 0x40000000 = some .rearm := by decide

theorem test_decode_deframer : decoded .cmd 0x50000040 = some (.setlen 64) ∧
    decoded .cmd 0x60000024 = some (.parse 0x24) ∧ decoded .cmd 0x68000000 = some .parsef ∧
    decoded .cmd 0x9000FE00 = some (.rdpay 254) := by decide

theorem test_decode_ack : decoded .cmd 0x7000002A = some (.pack 0x2A) ∧ decoded .cmd 0x78000000 = some .packf := by
  decide

theorem test_decode_framer : decoded .cmd 0x80000399 = some (.wrpay 3 0x99) ∧
    decoded .cmd 0xA00000FF = some (.build 255) ∧ decoded .cmd 0xB0000000 = some .buildack ∧
    decoded .cmd 0xC0000000 = some .txstep := by decide

theorem test_decode_control : decoded .cmd 0x00000000 = some .nop ∧ decoded .rx 0x00000000 = some .nop ∧
    decoded .cmd 0xD0000A00 = some (.rdreg 0x0A) := by decide

/-- V-DEF-15 to V-DEF-17, V-ACK-7, V-TX-9. -/
theorem test_decode_unused_fields : [(0x50000100 : Word), 0x68000024, 0x60010024, 0x90000001, 0x78000025, 0xC8000000,
    0xB0000001, 0xA0000100].filterMap (decoded .cmd) = [] := by decide

/-- V-CTL-3, V-CTL-7 to V-CTL-9, V-CTL-12. -/
theorem test_decode_illegal : [(0x00000001 : Word), 0xD0000001, 0xE0000000, 0xF0000000, 0x38000000,
    0x9000FF01].filterMap (decoded .cmd) = [] := by decide

/-- V-FIFO-13, V-FIFO-14, V-CTL-10. -/
theorem test_decode_wrong_port : decoded .cmd 0x10000041 = none ∧ decoded .cmd 0x20000000 = none ∧
    decoded .rx 0x30000000 = none ∧ decoded .rx 0x40000000 = none := by decide

theorem test_decode_table_word : decodeTableWord 32 0x10000041 = some (.push 0x41) ∧
    decodeTableWord 32 0x60000024 = some (.parse 0x24) ∧ decodeTableWord 32 0xE0000000 = none := by decide

/-- R131: LDPAY 3, 0x99, 0x98, whose first word is R132's. -/
theorem test_listing_ldpay :
    assembleLine ⟨none, .ldpay, [.decimal 3, .hexadecimal 0x99, .hexadecimal 0x98]⟩ =
      some [(.cmd, 0x80000399), (.cmd, 0x80000498)] := by decide

theorem test_listing_character : assembleLine ⟨none, .op .push, [.character '$']⟩ = some [(.rx, 0x10000024)] := by
  decide

/-! ## One step of each operation (95_test_vectors.md, the capacity 3 for 500) -/

/-- V-FIFO-9. -/
theorem test_push_wraps : (nextOf (exec (.push 0xAA) { start with rdIdx := 2, wrIdx := 2, armed := true })).map
    (fun t => (t.fifo, t.wrIdx, t.fill, t.inb)) = some ([(2, 0xAA)], 0, 1, true) := by decide

/-- V-FIFO-7. -/
theorem test_push_overflows : answer (.push 0xAB) full = some 0x30000000 := by decide

/-- V-FIFO-2. -/
theorem test_detach : (nextOf (exec .detach full)).map statusView = some 2 := by decide

/-- V-FIFO-10. -/
theorem test_pop_wraps : (nextOf (exec .pop atEdge)).map (fun t => (t.responses, t.rdIdx, t.fill)) =
    some ([(.cmd, 0x00000024)], 0, 0) := by decide

/-- V-SRC-2. -/
theorem test_pop_underflows : answer .pop start = some 0x40000000 := by decide

/-- V-FIFO-4. -/
theorem test_rearm : (nextOf (exec .rearm atEdge)).map statusView = some 1 := by decide

/-- V-DEF-5. -/
theorem test_setlen : (nextOf (exec (.setlen 5) collecting)).map (fun t => (t.len, t.flen)) = some (5, 3) := by decide

/-- V-DEF-1, its last byte. -/
theorem test_parse_frame : answer (.parse 0x23) beforeEnd2 = some 0x10000123 := by decide

/-- V-DEF-10, its fourth byte. -/
theorem test_parse_resync : (nextOf (exec (.parse 0x24) { beforeEnd2 with params := smallReexamine })).map
    (fun t => (t.pst, t.pcount, t.fv)) = some (.collecting, 0, false) := by decide

/-- V-DEF-4: the last payload byte, a start marker. -/
theorem test_parsef_collects : (nextOf (exec .parsef { atEdge with flen := 3, pcount := 2, pst := .collecting })).map
    (fun t => (t.rxpay, t.pst, t.fill)) = some ([(2, 0x24)], .awaitEnd1, 0) := by decide

/-- V-DEF-14. -/
theorem test_parsef_underflows : (nextOf (exec .parsef collecting)).map (fun t => (t.responses, t.pcount)) =
    some ([(.cmd, 0x40000000)], 2) := by decide

/-- V-ACK-1, its last byte. -/
theorem test_pack_ack : answer (.pack 0x25) { start with ast := .aGotAk1 } = some 0x20000025 := by decide

/-- V-ACK-2, its second byte. -/
theorem test_pack_resync : (nextOf (exec (.pack 0x24) { start with ast := .aGotSm })).map (·.ast) = some .aStart := by
  decide

/-- V-ACK-6, its second byte. -/
theorem test_packf : (nextOf (exec .packf { full with ast := .aGotSm })).map (fun t => (t.responses, t.ast, t.fill)) =
    some ([(.cmd, 0x0000002A)], .aGotAk1, 2) := by decide

/-- V-TX-7. -/
theorem test_wrpay_last : (nextOf (exec (.wrpay 254 0x5A) start)).map (·.txpay) = some [(254, 0x5A)] := by decide

/-- V-TX-6. -/
theorem test_wrpay_range : answer (.wrpay 255 1) start = some 0x90000000 := by decide

/-- V-DEF-3. -/
theorem test_rdpay_last : answer (.rdpay 254) { start with rxpay := [(254, 0xFE)] } = some 0x000000FE := by decide

/-- V-DEF-3. -/
theorem test_rdpay_range : answer (.rdpay 255) start = some 0x90000000 := by decide

/-- V-SRC-3. -/
theorem test_build : (nextOf (exec (.build 2) { start with txpay := [(0, 0x11), (1, 0x22)] })).map
    (fun t => (t.txw, t.txLen, t.txAct)) =
      some ([(0, 0x24), (1, 0x11), (2, 0x22), (3, 0x40), (4, 0x23)], 5, true) := by decide

/-- V-TX-3. -/
theorem test_build_busy : answer (.build 1) sending = some 0x80000000 := by decide

/-- V-SRC-3. -/
theorem test_buildack : (nextOf (exec .buildack start)).map (fun t => (t.txw, t.txLen)) =
    some ([(0, 0x24), (1, 0x2A), (2, 0x25)], 3) := by decide

/-- V-TX-4, its last byte. -/
theorem test_txstep_done : (nextOf (exec .txstep sending)).map
    (fun t => (t.responses, t.emitted, t.txCur, t.txAct)) = some ([(.cmd, 0x60000025)], [0x25], 0, false) := by decide

/-- V-TX-8 and R264. -/
theorem test_txstep_idle : answer .txstep start = some 0x70000000 ∧
    answer .txstep { sending with txWritable := false } = some 0x50000000 := by decide

/-- V-CTL-4. -/
theorem test_rdreg_cap : answer (.rdreg 0x0A) State.reset = some 0x000001F4 := by decide

/-- V-FIFO-1 and V-CTL-5. -/
theorem test_rdreg_status : answer (.rdreg 0) { start with armed := true, inb := true } = some 0x00000011 ∧
    answer (.rdreg 0x0B) start = some 0x90000000 := by decide

/-- V-CTL-1. -/
theorem test_nop : answer .nop start = some 0x00000000 := by decide

/-- R70: the entry after the last is outside the space. -/
theorem test_outside_space : (match memRead .txw 258 start with
    | .error f => some f
    | .ok _ => none) = some (.outsideSpace .txw 258) := by decide

/-- R155: a byte that arrives while RXFE is attached is kept. -/
theorem test_arrives_attached : (byteArrives 7 true { startReexamine with armed := true }).rxBytes = [7] := by decide

/-- R155: a byte that arrives while RXFE is detached may be lost. -/
theorem test_arrives_detached : (byteArrives 7 true startReexamine).rxBytes = [] := by decide

/-- The very next step runs a placed word, on the port that decodes it. -/
theorem test_with_fetch_word :
    (nextOf (step (State.reset.withFetchWord 32 0x10000041))).map (fun t => (t.responses, t.fifo)) =
      some ([(.rx, 0)], [(0, 0x41)]) ∧
    (nextOf (step (State.reset.withFetchWord 32 0x50000040))).map (·.len) = some 64 := by decide

/-! ## Witnesses: states and operands that meet the hypotheses of each statement -/

theorem test_witness_EncodeThenDecode : (Instr.push 0xFF).legalOn .rx = true ∧ Instr.nop.legalOn .rx = true ∧
    (Instr.wrpay 0xFF 0xFF).legalOn .cmd = true := by decide

theorem test_witness_DecodeThenEncode : decode .cmd 0x8000FFFF = .ok (.wrpay 0xFF 0xFF) ∧
    decode .rx 0x100000FF = .ok (.push 0xFF) := ⟨rfl, rfl⟩

theorem test_witness_OpcodeRowsDisjoint : (⟨.parse, 0x60000000, 0xFFFFFF00, [.cmd]⟩ : OpcodeRow) ∈ opcodeTable ∧
    (⟨.parse, 0x60000000, 0xFFFFFF00, [.cmd]⟩ : OpcodeRow).matches 0x600000FF = true := by decide

theorem test_witness_LdpayStagesItsBytes : ldpayFits 0 [0xDE, 0xAD] = true ∧ ldpayFits 254 [1] = true := by decide

theorem test_witness_StepRunsDecodedOperation :
    ({ start with events := [.cmdWord 0x50000002 true] } : State).events = .cmdWord 0x50000002 true :: [] ∧
      decode .cmd 0x50000002 = .ok (.setlen 2) ∧
    ({ start with events := [.rxWord 0x20000000] } : State).events = .rxWord 0x20000000 :: [] ∧
      decode .rx 0x20000000 = .ok .detach ∧
    ({ start with events := [.rxfeTurn] } : State).events = .rxfeTurn :: [] ∧ start.events = [] :=
  ⟨rfl, rfl, rfl, rfl, rfl, rfl⟩

/-- One word for each cause of R116. -/
theorem test_witness_IllegalWordOnlyAnswers : decode .cmd 0xE0000000 = .error (.reservedOp 0xE) ∧
    decode .cmd 0x00000001 = .error (.unusedField ⟨0, 0, 0, 0, 1⟩) ∧ decode .cmd 0x20000000 = .error (.wrongPort .detach) :=
  ⟨rfl, rfl, rfl⟩

theorem test_witness_OneResponsePerWord : (∃ t, issueWord .cmd 0xE0000000 start = .next t) ∧
    ∃ t, issueWord .rx 0x20000000 start = .next t := ⟨⟨_, rfl⟩, _, rfl⟩

theorem test_witness_BothPortOrdersAdmitted : FifoInv start ∧ start.fill = 0 := by decide

theorem test_witness_PushStoresByte : start.fill ≠ start.params.pCap ∧ start.wrIdx < start.params.pCap ∧
    ({ atEdge with wrIdx := 2, rdIdx := 0, fill := 2 } : State).fill ≠ 3 ∧ FifoInv { atEdge with wrIdx := 2, rdIdx := 0, fill := 2 } := by
  decide

theorem test_witness_RejectionWithoutMutation : full.fill = full.params.pCap ∧ start.fill = 0 := by decide

theorem test_witness_PopRemovesOldest : atEdge.fill ≠ 0 ∧ atEdge.rdIdx < atEdge.params.pCap ∧ full.fill ≠ 0 := by decide

theorem test_witness_FifoKeepsOrder : FifoInv full ∧ ∃ t, execAll [.push 9, .pop, .parsef] full = .next t :=
  ⟨by decide, _, rfl⟩

theorem test_witness_FifoWrapsAround : Params.wf ⟨1, false, .keep⟩ ∧ ([7] : List Byte).length = 1 ∧
    ([.pop] : List Instr).length = 1 ∧ (∀ r ∈ [Instr.pop], removesFifo r = true) ∧ small.wf ∧
    (∀ r ∈ [Instr.pop, .parsef, .packf], removesFifo r = true) ∧
    ∃ t, execAll [.push 7, .push 8, .parsef, .pop, .pop] start = .next t :=
  ⟨by decide, rfl, rfl, by decide, by decide, by decide, _, rfl⟩

theorem test_witness_RxfeFollowsPolicy :
    (full.armed = true ∧ ({ full with rxBytes := [7] } : State).rxBytes = 7 :: []) ∧
    (full.armed = true ∧ full.inb = true ∧ full.rxBytes = []) ∧ start.armed = false ∧
    ({ start with armed := true } : State).inb = false := by decide

theorem test_witness_BurstDrainsTransport :
    (FifoInv { start with armed := true, rxBytes := [1, 2, 3, 4, 5] } ∧ ([1, 2, 3, 4, 5] : List Byte) ≠ []) ∧
    FifoInv full ∧ full.armed = true ∧ full.rxBytes = [] ∧ full.inb = true := by decide

theorem test_witness_NoPushWhileDispatchPending : IngressInv { atEdge with rxBytes := [7] } ∧ atEdge.dpend = true ∧
    (∀ e ∈ [Event.rxfeTurn, .cmdWord 0x30000000 true], e ≠ .reset ∧ (∀ w, e ≠ .rxWord w) ∧
      ∀ writable, e ≠ .cmdWord (encode .rearm) writable) ∧
    ∃ t, performAll [.rxfeTurn, .cmdWord 0x30000000 true] { atEdge with rxBytes := [7] } = .next t := by
  refine ⟨by decide, rfl, ?_, _, rfl⟩
  intro e he
  simp only [List.mem_cons, List.not_mem_nil, or_false] at he
  rcases he with rfl | rfl
  · exact ⟨by decide, fun w h => (by cases h), fun b h => (by cases h)⟩
  · refine ⟨by decide, fun w h => (by cases h), fun b h => ?_⟩
    injection h with h1 h2
    exact absurd h1 (by decide)

theorem test_witness_ArrivingBytes : full.armed = true ∧ start.params.trxRx = .keep ∧ startReexamine.armed = false ∧
    startReexamine.params.trxRx = .lossy := by decide

theorem test_witness_ParseFollowsTransitionTable : start.pst = .awaitStart ∧ collecting.pst = .collecting ∧
    ({ collecting with flen := 255, pcount := 254 } : State).pcount.toNat < 255 ∧ beforeEnd1.pst = .awaitEnd1 ∧
    beforeEnd2.pst = .awaitEnd2 := by decide

theorem test_witness_ParsefStepsOnFifoHead :
    ({ atEdge with pst := .collecting, flen := 255, pcount := 254 } : State).fill ≠ 0 ∧ atEdge.rdIdx < atEdge.params.pCap ∧
      ({ atEdge with pst := .collecting, flen := 255, pcount := 254 } : State).pcount.toNat < 255 := by decide

theorem test_witness_RdpayReadsPayload : (254 : Byte) ≠ 255 := by decide

/-- LEN = 0: the frame 24 40 23 after one other byte, with LEN 7 at the end markers. -/
theorem test_witness_ExactFrameAcceptance : start.pst = .awaitStart ∧ start.params.resyncReexamine = false ∧
    ([(5, 0x58), (0, startMarker), (7, endMarker1), (7, endMarker2)] : List (Byte × Byte)) =
      [(5, 0x58)] ++ (0, startMarker) :: [] ++ [(7, endMarker1), (7, endMarker2)] ∧
    ([] : List (Byte × Byte)).length = (0 : Byte).toNat ∧
    ∃ t, execAll (feedOps [(5, 0x58)]) start = .next t ∧ t.pst = .awaitStart :=
  ⟨rfl, rfl, rfl, rfl, _, rfl, rfl⟩

theorem test_witness_WholeFrameDelivered : start.pst = .awaitStart ∧ start.len.toNat = ([] : List Byte).length ∧
    ({ start with len := 2 } : State).len.toNat = ([0x24, 0x40] : List Byte).length := by decide

theorem test_witness_MalformedPrefixDoesNotLeak : ({ start with len := 2 } : State).pst = .awaitStart ∧
    ({ start with len := 2 } : State).len = 2 := by decide

theorem test_witness_RecognizersNeverLockUp : DeframerInv collecting ∧ bytesToEnd collecting = 3 ∧
    DeframerInv { collecting with flen := 255, pcount := 0 } ∧
    bytesToEnd { collecting with flen := 255, pcount := 0 } = 257 ∧ DeframerInv beforeEnd1 ∧ DeframerInv beforeEnd2 ∧
    DeframerInv start ∧ collecting.params.resyncReexamine = false := by decide

theorem test_witness_LengthLatchedAtStart : DeframerInv collecting ∧ collecting.pst = .collecting ∧
    DeframerInv { collecting with params := smallReexamine } ∧ DeframerInv beforeEnd1 ∧ beforeEnd1.pst ≠ .awaitStart ∧
    beforeEnd1.params.resyncReexamine = false := by decide

theorem test_witness_PayloadKeptUntilCollecting :
    (∃ t, exec (.parse 0x24) { start with len := 2, fv := true } = .next t ∧ t.pst ≠ .awaitStart) ∧
    beforeEnd1.pst ≠ .collecting ∧ ∃ t, exec (.parse 0x24) beforeEnd1 = .next t :=
  ⟨⟨_, rfl, by decide⟩, by decide, _, rfl⟩

theorem test_witness_PackfStepsOnFifoHead : full.fill ≠ 0 ∧ full.rdIdx < full.params.pCap := by decide

theorem test_witness_AckFrameRecognized : start.ast = .aStart ∧ startReexamine.ast = .aStart := by decide

theorem test_witness_WrpayStagesByte : (254 : Byte) ≠ 255 := by decide

theorem test_witness_BuildComposesFrame : start.txAct = false := by decide

theorem test_witness_BuildackComposesAck : start.txAct = false := by decide

theorem test_witness_BusyRefusesBuild : sending.txAct = true ∧ ∃ n, Instr.build 255 = .build n := ⟨rfl, 255, rfl⟩

/-- The last byte of an ack, of the longest frame, and a byte that is not the last. -/
theorem test_witness_TxstepSendsByte : (sending.txAct = true ∧ sending.txWritable = true ∧ sending.txCur.toNat < 258) ∧
    ({ sending with txLen := 258, txCur := 257 } : State).txCur.toNat < 258 ∧
    ({ sending with txLen := 258, txCur := 257 } : State).txCur + 1 = 258 ∧
    ({ sending with txCur := 0 } : State).txCur + 1 ≠ sending.txLen := by decide

theorem test_witness_TxstepWithoutSending : start.txAct = false ∧ ({ sending with txWritable := false } : State).txAct = true ∧
    ({ sending with txWritable := false } : State).txWritable = false := by decide

theorem test_witness_PumpSendsWireImage : start.txAct = false := by decide

theorem test_witness_TransmissionNotAbandoned : sending.txAct = true ∧
    (∃ t, exec .txstep sending = .next t ∧ t.txAct = false) ∧ ∃ t, exec (.build 5) sending = .next t :=
  ⟨rfl, ⟨_, rfl, rfl⟩, _, rfl⟩

theorem test_witness_RdregReadsRegisterMap : (0x00, 18) ∈ registerMap { atEdge with inb := true } ∧
    (0x01, 9) ∈ registerMap { collecting with ast := .aGotAk1 } ∧ (0x0A, 3) ∈ registerMap start := by decide

theorem test_witness_OutOfRangeOnlyAnswers : 0x0B ≤ (0x0B : Byte).toNat ∧ 0x0B ≤ (0xFF : Byte).toNat := by decide

theorem test_witness_RegistersWrittenByNamedOperations : ∃ t, exec (.push 0x41) { start with armed := true } = .next t ∧
    t.wrIdx ≠ start.wrIdx ∧ t.fill ≠ start.fill ∧ t.inb ≠ start.inb := ⟨_, rfl, by decide⟩

/-- A step from a state in use, which meets every invariant: a PARSEF in the middle of a frame. -/
def inUse : State :=
  { atEdge with
    len := 2, flen := 2, pcount := 1, pst := .collecting, rxpay := [(0, 0x41)]
    txw := [(0, 0x24), (1, 0x2A), (2, 0x25)], txLen := 3, txCur := 1, txAct := true
    events := [.cmdWord 0x68000000 true] }

theorem test_witness_step_in_use : ∃ t, step inUse = .next t := ⟨_, rfl⟩

theorem test_witness_StepKeepsFifoInv : FifoInv inUse := by decide

theorem test_witness_StepKeepsIngressInv : IngressInv inUse := by decide

theorem test_witness_StepKeepsDeframerInv : DeframerInv inUse := by decide

theorem test_witness_StepKeepsTransmitInv : TransmitInv inUse := by decide

theorem test_witness_StepKeepsMemoryInv : MemoryInv inUse := by decide

theorem test_witness_StepKeepsEntriesWritten : FifoInv inUse ∧ DeframerInv inUse ∧ FifoWritten inUse ∧
    PayloadWritten inUse ∧ ImageWritten inUse := by decide

theorem test_witness_StepKeepsImageForm : ImageForm inUse := fun _ => .inl rfl

theorem test_witness_NoStepFaults : Inv inUse ∧ Inv full := by decide

theorem test_witness_ReachableIngressRegisters : small.wf ∧
    ∃ t, performAll [.cmdWord 0x40000000 true, .arrive 7 false, .rxfeTurn, .rxfeTurn, .reset] start = .next t :=
  ⟨by decide, _, rfl⟩

theorem test_witness_RegistersFitTheirWidths : FifoInv full ∧ 1 ≤ 9 ∧ 500 ≤ 2 ^ 9 := by decide

/-- The car sending the last byte of an ack, two bytes still in flight. -/
def linked : Peers :=
  { car := { sending with emitted := [0x24, 0x2A] }, remote := start, toCar := [], toRemote := [0x2A],
    handedToCar := [], handedToRemote := [0x24] }

theorem test_witness_LinkCarriesEmittedBytes : linked.car.emitted = linked.handedToRemote ++ linked.toRemote ∧
    linked.remote.emitted = linked.handedToCar ++ linked.toCar ∧ linked.toRemote = 0x2A :: [] ∧
    (∃ r, peersStep (.act .car (.cmdWord 0xC0000000 true)) linked = .next r) ∧
    (∃ r, peersStep (.act .remote .rxfeTurn) linked = .next r) ∧
    isLocalEvent (.cmdWord 0xC0000000 true) = true ∧ isLocalEvent .rxfeTurn = true ∧
    ({ linked with toCar := [7] } : Peers).toCar = 7 :: [] :=
  ⟨rfl, rfl, rfl, ⟨_, rfl⟩, ⟨_, rfl⟩, rfl, rfl, rfl⟩

/-- R274: the byte handed over reaches the receiver's transport. -/
theorem test_link_delivers : (match peersStep (.deliver .remote true) linked with
    | .next r => some (r.remote.rxBytes, r.toRemote)
    | _ => none) = some ([0x2A], []) := by decide

/-- A full FIFO, an ack sent up to its last byte, a delivered payload. -/
theorem test_witness_ReadsFindWrittenEntries : (FifoInv full ∧ FifoWritten full ∧ full.fill ≠ 0) ∧
    (TransmitInv sending ∧ ImageWritten sending ∧ sending.txAct = true ∧ sending.txWritable = true) ∧
    PayloadWritten { collecting with flen := 2, pst := .awaitStart, fv := true } ∧ (1 : Byte).toNat < (2 : Byte).toNat := by
  decide

end Sys2Proof.Tests
end

section
/-! PROOFS. The statements on the model's scope (spec/00_scope.md): how a step takes the oldest event, what every step
keeps, the FIFO's register invariant and the widths of its registers, the arriving bytes, the marker constants. -/

namespace Sys2Proof.Machine

/-! ## Steps and words -/

/-- R9: a step performs the oldest event. -/
theorem step_of_events_cons {s : State} {e : Event} {es : List Event} (h : s.events = e :: es) :
    step s = performEvent e { s with events := es } := by
  simp only [step, nextEvent, h]

/-- R293: with no event the block waits. -/
theorem step_of_events_nil {s : State} (h : s.events = []) : step s = .next s := by
  simp only [step, nextEvent, h]

/-- R115: a legal word is the operation it decodes to, issued on its port. -/
theorem issueWord_of_decode_ok {p : Port} {w : Word} {i : Instr} (h : decode p w = .ok i) (s : State) :
    issueWord p w s = exec i { s with port := p } := by
  simp only [issueWord, h]

/-- Settles O8: the step takes the oldest event, and a word event is the operation the word decodes to. -/
theorem stepRunsDecodedOperation : Obligations.StepRunsDecodedOperation := by
  refine ⟨?cmdWord, ?rxWord, fun _ _ _ => step_of_events_cons, fun _ => step_of_events_nil⟩
  case cmdWord =>
    intro s w writable es i hev hdec
    rw [step_of_events_cons hev]
    exact issueWord_of_decode_ok hdec _
  case rxWord =>
    intro s w es i hev hdec
    rw [step_of_events_cons hev]
    exact issueWord_of_decode_ok hdec _

/-! ## What every event and every step keeps -/

theorem envChange_events (s : State) (es : List Event) : EnvChange s { s with events := es } := rfl

/-- The parts of which every event is made each keep `P`: an operation, an answer, a change of the environment, the
reset. -/
structure KeptByParts (P : State → Prop) : Prop where
  exec {i : Instr} {s t : State} : P s → exec i s = .next t → P t
  answer (rc : ResultCode) (data : Data) {s : State} : P s → P (respond rc data s)
  environment {s t : State} : P s → EnvChange s t → P t
  reset {s : State} : P s → P (resetBlock s)

theorem KeptByParts.performEvent {P : State → Prop} (kept : KeptByParts P) {e : Event} {s t : State} (hs : P s)
    (h : performEvent e s = .next t) : P t := by
  rcases performEvent_cases h with ⟨i, u, hu, hi⟩ | ⟨u, hu, rfl⟩ | hu | ⟨-, rfl⟩
  · exact kept.exec (kept.environment hs hu) hi
  · exact kept.answer _ _ (kept.environment hs hu)
  · exact kept.environment hs hu
  · exact kept.reset hs

theorem KeptByParts.step {P : State → Prop} (kept : KeptByParts P) {s t : State} (hs : P s) (h : step s = .next t) :
    P t := by
  cases hev : s.events with
  | nil =>
    rw [step_of_events_nil hev] at h
    cases h
    exact hs
  | cons e es =>
    rw [step_of_events_cons hev] at h
    exact kept.performEvent (kept.environment hs (envChange_events s es)) h

/-! ## The FIFO's registers -/

/-- R36: an entry added at WRIDX. -/
theorem FifoInv.entry_added {s t : State} (hs : FifoInv s) (hnotFull : s.fill ≠ s.params.pCap)
    (hparams : t.params = s.params) (hrd : t.rdIdx = s.rdIdx) (hwr : t.wrIdx = (s.wrIdx + 1) % s.params.pCap)
    (hfill : t.fill = s.fill + 1) : FifoInv t := by
  obtain ⟨hwf, hr, hw, hle, hlink⟩ := hs
  have hpos : 0 < s.params.pCap := hwf.1
  unfold FifoInv
  rw [hparams, hrd, hwr, hfill]
  refine ⟨hwf, hr, Nat.mod_lt _ hpos, by omega, ?_⟩
  rw [hlink, Nat.mod_add_mod, Nat.add_assoc]

/-- R36: the entry at RDIDX removed. -/
theorem FifoInv.head_removed {s : State} (hs : FifoInv s) (hnotEmpty : s.fill ≠ 0) : FifoInv (fifoAdvanced s) := by
  obtain ⟨hwf, hr, hw, hle, hlink⟩ := hs
  have hpos : 0 < s.params.pCap := hwf.1
  refine ⟨hwf, Nat.mod_lt _ hpos, hw, (Nat.sub_le ..).trans hle, ?_⟩
  calc s.wrIdx = (s.rdIdx + s.fill) % s.params.pCap := hlink
    _ = (s.rdIdx + 1 + (s.fill - 1)) % s.params.pCap := by congr 1; omega
    _ = ((s.rdIdx + 1) % s.params.pCap + (s.fill - 1)) % s.params.pCap := (Nat.mod_add_mod ..).symm

/-- R290: the reset registers, for any capacity R11 allows. -/
theorem FifoInv.resetBlock {s : State} (hwf : s.params.wf) : FifoInv (resetBlock s) :=
  ⟨hwf, hwf.1, hwf.1, Nat.zero_le _, (Nat.zero_mod _).symm⟩

theorem FifoInv.respond (rc : ResultCode) (data : Data) {s : State} (hs : FifoInv s) :
    FifoInv (respond rc data s) := hs

theorem FifoInv.envChange {s t : State} (hs : FifoInv s) (h : EnvChange s t) : FifoInv t := by
  unfold EnvChange at h
  rw [h]
  exact hs

theorem FifoInv.enterBurst {s : State} (hs : FifoInv s) : FifoInv (enterBurst s) := by
  simpa [FifoInv] using hs

/-- R173: a deframer step does not touch the FIFO. -/
theorem FifoInv.dstep {b : Byte} {s t : State} {rc : ResultCode} (hs : FifoInv s) (h : dstep b s = .ok (rc, t)) :
    FifoInv t := by
  rw [dstep_frame h]
  exact hs

/-- R178: an ack-recognizer step does not touch the FIFO. -/
theorem FifoInv.astep (b : Byte) {s : State} (hs : FifoInv s) : FifoInv (astep b s).2 := by
  rw [astep_frame b s]
  exact hs

/-- R212, R213: a wire image is loaded beside the FIFO. -/
theorem FifoInv.imageLoaded {image : List Byte} {s t : State} (hs : FifoInv s) (h : ImageLoaded image s t) :
    FifoInv t := by
  obtain ⟨m, rfl, -⟩ := h
  exact hs

/-- R35, R36: only a PUSH that stores and the operations that take the head move the FIFO's registers. -/
theorem exec_keeps_fifoInv {i : Instr} {s t : State} (hs : FifoInv s) (h : exec i s = .next t) : FifoInv t := by
  cases exec_cases h with
  | overflowed => exact hs.enterBurst.respond ..
  | pushed _ _ hnotFull => exact hs.entry_added hnotFull rfl rfl rfl rfl
  | popped _ _ hnotEmpty => exact (hs.head_removed hnotEmpty).respond ..
  | parsed _ _ _ _ _ hd => exact (hs.dstep hd).respond ..
  | parsedHead _ _ _ _ _ hnotEmpty _ hd => exact ((hs.head_removed hnotEmpty).dstep hd).respond ..
  | recognized b _ _ _ _ ha => exact ha ▸ (hs.astep b).respond ..
  | recognizedHead b _ _ _ _ hnotEmpty _ ha => exact ha ▸ ((hs.head_removed hnotEmpty).astep b).respond ..
  | frameBuilt _ _ _ _ hu => exact (hs.imageLoaded hu).respond ..
  | ackBuilt _ _ _ hu => exact (hs.imageLoaded hu).respond ..
  | _ => exact hs

/-- R35, R36: the parts of every event keep the FIFO's registers linked. -/
theorem keptByParts_fifoInv : KeptByParts FifoInv where
  exec := exec_keeps_fifoInv
  answer := FifoInv.respond
  environment := FifoInv.envChange
  reset hs := .resetBlock hs.1

/-- Settles O49: a step is one event, and the parts of every event keep the invariant. -/
theorem stepKeepsFifoInv : Obligations.StepKeepsFifoInv := fun _ _ => keptByParts_fifoInv.step

/-! ## Widths (R12) -/

/-- R12: among the widths of at least 1, those that reach `n` are those from `clog2 n` up. -/
theorem clog2_le_iff {n w : Nat} (hw : 1 ≤ w) : clog2 n ≤ w ↔ n ≤ 2 ^ w := by
  unfold clog2
  split
  next hsmall =>
    have hpow : 2 ^ 1 ≤ 2 ^ w := Nat.pow_le_pow_right (by decide) hw
    exact iff_of_true hw (hsmall.trans hpow)
  next hlarge =>
    rw [Nat.succ_le_iff, Nat.log2_lt (by omega)]
    omega

theorem one_le_clog2 (n : Nat) : 1 ≤ clog2 n := by
  unfold clog2
  split <;> omega

theorem le_two_pow_clog2 (n : Nat) : n ≤ 2 ^ clog2 n := (clog2_le_iff (one_le_clog2 n)).mp le_rfl

/-- Settles O58: `clog2` is the least width by `clog2_le_iff`, and the invariant bounds the registers by P_CAP. -/
theorem registersFitTheirWidths : Obligations.RegistersFitTheirWidths := by
  refine ⟨fun n => ⟨one_le_clog2 n, le_two_pow_clog2 n, fun w hw => (clog2_le_iff hw).mpr⟩,
    ⟨by decide, by decide⟩, ?_⟩
  rintro s ⟨-, hrd, hwr, hfill, -⟩
  have hidx : s.params.pCap ≤ 2 ^ widthIdx s.params := le_two_pow_clog2 _
  have hcount : s.params.pCap + 1 ≤ 2 ^ widthFill s.params := le_two_pow_clog2 _
  exact ⟨hrd.trans_le hidx, hwr.trans_le hidx, (Nat.lt_succ_of_le hfill).trans_le hcount⟩

/-! ## Arriving bytes (R155) -/

/-- A lossy transport that draws a loss while RXFE is detached drops the byte. -/
theorem byteArrives_lost {b : Byte} {lost : Bool} {s : State} (hdetached : s.armed = false)
    (hlossy : s.params.trxRx = .lossy) (hlost : lost = true) : byteArrives b lost s = s :=
  if_pos ⟨hlost, hdetached, hlossy⟩

/-- Settles O21: the byte is kept or lost as `byteArrives` decides. -/
theorem arrivingBytes : Obligations.ArrivingBytes := fun _ _ _ =>
  ⟨fun hkept => congrArg _ (byteArrives_kept hkept),
    fun hdetached hlossy hlost => congrArg _ (byteArrives_lost hdetached hlossy hlost)⟩

/-! ## Marker constants (R20) -/

/-- Settles O6: the five bytes by definition, their characters' codes by evaluation. -/
theorem markerConstants : Obligations.MarkerConstants :=
  ⟨rfl, rfl, rfl, rfl, rfl, by decide⟩

end Sys2Proof.Machine
end

section
/-! PROOFS. What each operation may write (spec/10_state.md, the summary table): the frames of the later proofs. -/

namespace Sys2Proof.Machine

/-! ## Parts of an event, carried to a whole state

Each lemma gives a property of the state reached from the same property of the state written out, so that a property
which reads none of the changed fields is closed by the hypothesis it started from. -/

theorem EnvChange.keeps {P : State → Prop} {s t : State} (h : EnvChange s t)
    (hP : P { s with events := t.events, port := t.port, txWritable := t.txWritable, rxBytes := t.rxBytes }) : P t := by
  rw [h]
  exact hP

theorem dstep_keeps {P : State → Prop} {b : Byte} {s t : State} {rc : ResultCode} (h : dstep b s = .ok (rc, t))
    (hP : P { s with pst := t.pst, flen := t.flen, pcount := t.pcount, fv := t.fv, rxpay := t.rxpay }) : P t := by
  rw [dstep_frame h]
  exact hP

theorem astep_keeps {P : State → Prop} {b : Byte} {s t : State} (h : (astep b s).2 = t)
    (hP : P { s with ast := t.ast }) : P t := by
  subst h
  rw [astep_frame b s]
  exact hP

theorem enterBurst_eq (s : State) : enterBurst s = { s with inb := s.inb || s.armed } := by
  unfold enterBurst
  cases s
  split <;> simp_all

/-! ## What an operation may write -/

/-- `s` with what `i` may write, the responses besides, taken from `t`: the summary table of 10_state.md read by
operation. -/
def overwrite (i : Instr) (s t : State) : State :=
  match i with
  | .nop | .rdpay _ | .rdreg _ => { s with responses := t.responses }
  | .push _ =>
    { s with fifo := t.fifo, wrIdx := t.wrIdx, fill := t.fill, inb := t.inb, responses := t.responses }
  | .detach => { s with armed := t.armed, dpend := t.dpend, inb := t.inb, responses := t.responses }
  | .rearm => { s with armed := t.armed, dpend := t.dpend, responses := t.responses }
  | .pop => { s with rdIdx := t.rdIdx, fill := t.fill, responses := t.responses }
  | .setlen _ => { s with len := t.len, responses := t.responses }
  | .parse _ =>
    { s with flen := t.flen, pcount := t.pcount, pst := t.pst, fv := t.fv, rxpay := t.rxpay, responses := t.responses }
  | .parsef =>
    { s with
      rdIdx := t.rdIdx, fill := t.fill
      flen := t.flen, pcount := t.pcount, pst := t.pst, fv := t.fv, rxpay := t.rxpay, responses := t.responses }
  | .pack _ => { s with ast := t.ast, responses := t.responses }
  | .packf => { s with rdIdx := t.rdIdx, fill := t.fill, ast := t.ast, responses := t.responses }
  | .wrpay _ _ => { s with txpay := t.txpay, responses := t.responses }
  | .build _ | .buildack =>
    { s with txw := t.txw, txLen := t.txLen, txCur := t.txCur, txAct := t.txAct, responses := t.responses }
  | .txstep => { s with txCur := t.txCur, txAct := t.txAct, emitted := t.emitted, responses := t.responses }

/-- R30: an operation writes only what its row of `overwrite` names. -/
theorem exec_eq_overwrite {i : Instr} {s t : State} (h : exec i s = .next t) : t = overwrite i s t := by
  cases exec_cases h with
  | answered => cases i <;> rfl
  | overflowed => rw [enterBurst_eq]; rfl
  | parsed b _ u rc data hd =>
    exact dstep_keeps (P := fun u => respond rc data u = overwrite (.parse b) s (respond rc data u)) hd rfl
  | parsedHead b _ u rc data _ _ hd =>
    exact dstep_keeps (P := fun u => respond rc data u = overwrite .parsef s (respond rc data u)) hd rfl
  | recognized b _ u rc data ha =>
    exact astep_keeps (P := fun u => respond rc data u = overwrite (.pack b) s (respond rc data u)) ha rfl
  | recognizedHead b _ u rc data _ _ ha =>
    exact astep_keeps (P := fun u => respond rc data u = overwrite .packf s (respond rc data u)) ha rfl
  | frameBuilt _ _ _ _ hu => obtain ⟨m, rfl, -⟩ := hu; rfl
  | ackBuilt _ _ _ hu => obtain ⟨m, rfl, -⟩ := hu; rfl
  | _ => rfl

/-- The parts of the block that the frames of the statements speak of. -/
inductive Part where
  | fifo
  | ingress
  | deframer
  | ack
  | transmit

/-- Whether an operation may write anything of a part. -/
def mayWrite : Instr → Part → Bool
  | .push _, .fifo | .push _, .ingress => true
  | .detach, .ingress | .rearm, .ingress => true
  | .pop, .fifo => true
  | .setlen _, .deframer | .parse _, .deframer => true
  | .parsef, .fifo | .parsef, .deframer => true
  | .pack _, .ack => true
  | .packf, .fifo | .packf, .ack => true
  | .wrpay _ _, .transmit | .build _, .transmit | .buildack, .transmit | .txstep, .transmit => true
  | _, _ => false

theorem exec_sameFifo {i : Instr} {s t : State} (h : exec i s = .next t) (hi : mayWrite i .fifo = false) :
    SameFifo s t := by
  rw [exec_eq_overwrite h]
  cases i with
  | push | pop | parsef | packf => cases hi
  | _ => exact ⟨rfl, rfl, rfl, fun _ => rfl⟩

theorem exec_sameIngress {i : Instr} {s t : State} (h : exec i s = .next t) (hi : mayWrite i .ingress = false) :
    SameIngress s t := by
  rw [exec_eq_overwrite h]
  cases i with
  | push | detach | rearm => cases hi
  | _ => exact ⟨rfl, rfl, rfl⟩

theorem exec_sameDeframer {i : Instr} {s t : State} (h : exec i s = .next t) (hi : mayWrite i .deframer = false) :
    SameDeframer s t := by
  rw [exec_eq_overwrite h]
  cases i with
  | setlen | parse | parsef => cases hi
  | _ => exact ⟨rfl, rfl, rfl, rfl, rfl, fun _ => rfl⟩

theorem exec_sameAst {i : Instr} {s t : State} (h : exec i s = .next t) (hi : mayWrite i .ack = false) :
    t.ast = s.ast := by
  rw [exec_eq_overwrite h]
  cases i with
  | pack | packf => cases hi
  | _ => rfl

theorem exec_sameTransmit {i : Instr} {s t : State} (h : exec i s = .next t) (hi : mayWrite i .transmit = false) :
    SameTransmit s t := by
  rw [exec_eq_overwrite h]
  cases i with
  | wrpay | build | buildack | txstep => cases hi
  | _ => exact ⟨rfl, rfl, rfl, fun _ => rfl, fun _ => rfl, rfl⟩

/-- R243: no operation writes the configuration or the environment. -/
theorem exec_sameEnvironment {i : Instr} {s t : State} (h : exec i s = .next t) : SameEnvironment s t := by
  rw [exec_eq_overwrite h]
  cases i with
  | _ => exact ⟨rfl, rfl, rfl, rfl, rfl, rfl⟩

/-- Settles O46: clause by clause, in each operation's row of `overwrite` what the row does not name is that of `s`. -/
theorem registersWrittenByNamedOperations : Obligations.RegistersWrittenByNamedOperations := by
  intro i s t h
  refine ⟨?rdIdx, ?wrIdx, ?fill, ?armed, ?dpend, ?inb, ?len, ?deframer, ?ast, ?txLen, ?pump, ?fifo, ?rxpay, ?txpay,
    ?txw, ?emitted, exec_sameEnvironment h⟩
  all_goals
    rw [exec_eq_overwrite h]
    cases i <;> simp [overwrite, State.byteAt, State.space]

end Sys2Proof.Machine
end

section
/-! PROOFS. The statements on single operations (spec/10_state.md): what each writes, and its frame. -/

namespace Sys2Proof.Machine

/-! ## Bytes of the spaces -/

/-- An entry that was written holds the byte written there. -/
theorem byteAt_of_read {s : State} {sp : Space} {i : Nat} {b : Byte} (h : (s.space sp).read? i = some b) :
    s.byteAt sp i = b := by
  rw [State.byteAt, h, Option.getD_some]

/-- An entry holds the same byte where the two spaces have the same byte written, or none, in one reset's run. -/
theorem byteAt_congr_read {s t : State} {sp : Space} {j : Nat} (h : (t.space sp).read? j = (s.space sp).read? j)
    (he : t.drawEpoch = s.drawEpoch) : t.byteAt sp j = s.byteAt sp j := by
  unfold State.byteAt
  rw [h, he]

theorem byteAt_write_same (s : State) (sp : Space) (i : Nat) (v : Byte) :
    (s.withSpace sp ((s.space sp).write i v)).byteAt sp i = v := by
  rw [byteAt_withSpace_write, if_pos ⟨rfl, rfl⟩]

theorem byteAt_write_ne (s : State) (sp : Space) {i j : Nat} (v : Byte) (h : j ≠ i) :
    (s.withSpace sp ((s.space sp).write i v)).byteAt sp j = s.byteAt sp j := by
  rw [byteAt_withSpace_write, if_neg fun hij => h hij.2]

/-! ## The ingress operations -/

/-- Settles O12: the storing case of PUSH, its frame by `exec_sameDeframer` and its fellows. -/
theorem pushStoresByte : Obligations.PushStoresByte := by
  intro d s hnotFull hwr
  have h : exec (.push d) s = .next _ := execPush_eq_next.mpr (.inr ⟨hnotFull, hwr, rfl⟩)
  exact ⟨_, h, rfl, byteAt_write_same s .fifo s.wrIdx d, fun i hi => byteAt_write_ne s .fifo d hi,
    rfl, rfl, rfl, rfl, rfl, rfl,
    exec_sameDeframer h rfl, exec_sameAst h rfl, exec_sameTransmit h rfl, exec_sameEnvironment h⟩

/-- Settles O14: `endBurst` and `rearmIngress` write the bits, the rest is the operations' frame. -/
theorem detachAndRearm : Obligations.DetachAndRearm := by
  intro s
  have hdetach : exec .detach s = .next (respond .ok 0 (endBurst s)) := rfl
  have hrearm : exec .rearm s = .next (respond .ok 0 (rearmIngress s)) := rfl
  exact ⟨⟨_, hdetach, rfl, rfl, rfl, rfl, exec_sameFifo hdetach rfl, exec_sameDeframer hdetach rfl,
      exec_sameAst hdetach rfl, exec_sameTransmit hdetach rfl, exec_sameEnvironment hdetach⟩,
    ⟨_, hrearm, rfl, rfl, rfl, rfl, exec_sameFifo hrearm rfl, exec_sameDeframer hrearm rfl,
      exec_sameAst hrearm rfl, exec_sameTransmit hrearm rfl, exec_sameEnvironment hrearm⟩⟩

/-- Settles O15: the removing case of POP. -/
theorem popRemovesOldest : Obligations.PopRemovesOldest := by
  intro s hnotEmpty hrd
  have h : exec .pop s = .next _ := execPop_eq_next.mpr (.inr ⟨hnotEmpty, hrd, rfl⟩)
  have hfill : s.fill - 1 + 1 = s.fill := Nat.succ_pred_eq_of_ne_zero hnotEmpty
  exact ⟨_, h, rfl, rfl, hfill, rfl, fun _ => rfl,
    exec_sameIngress h rfl, exec_sameDeframer h rfl, exec_sameAst h rfl, exec_sameTransmit h rfl,
    exec_sameEnvironment h⟩

/-! ## The operations that read or write one register or entry -/

/-- An answer changes nothing of the block (R18). -/
theorem sameBlock_respond (rc : ResultCode) (data : Data) (s : State) : SameBlock s (respond rc data s) where
  fifo := ⟨rfl, rfl, rfl, fun _ => rfl⟩
  ingress := ⟨rfl, rfl, rfl⟩
  deframer := ⟨rfl, rfl, rfl, rfl, rfl, fun _ => rfl⟩
  ast := rfl
  transmit := ⟨rfl, rfl, rfl, fun _ => rfl, fun _ => rfl, rfl⟩
  environment := ⟨rfl, rfl, rfl, rfl, rfl, rfl⟩

/-- Settles O22: SETLEN writes LEN, the rest is its frame. -/
theorem setlenSetsLength : Obligations.SetlenSetsLength := by
  intro n s
  have h : exec (.setlen n) s = .next (respond .ok 0 { s with len := n }) := rfl
  exact ⟨_, h, rfl, rfl, rfl, rfl, rfl, rfl, fun _ => rfl, exec_sameFifo h rfl, exec_sameIngress h rfl,
    exec_sameAst h rfl, exec_sameTransmit h rfl, exec_sameEnvironment h⟩

theorem exec_rdpay {a : Byte} (s : State) (ha : a ≠ 255) :
    exec (.rdpay a) s = .next (respond .ok (byteData (s.byteAt .rxpay a.toNat)) s) := by
  rw [exec, execRdpay_eq, if_neg ha]

/-- Settles O25: RDPAY below 255 is an answer and nothing else. -/
theorem rdpayReadsPayload : Obligations.RdpayReadsPayload :=
  fun _ s ha => ⟨_, exec_rdpay s ha, rfl, sameBlock_respond ..⟩

/-- Settles O35: WRPAY below 255 is one write to TXPAY. -/
theorem wrpayStagesByte : Obligations.WrpayStagesByte := by
  intro a d s ha
  have h : exec (.wrpay a d) s = .next (respond .ok 0 { s with txpay := s.txpay.write a.toNat d }) := by
    rw [exec, execWrpay_eq, if_neg ha]
  exact ⟨_, h, rfl, byteAt_write_same s .txpay a.toNat d, fun i hi => byteAt_write_ne s .txpay d hi, fun _ => rfl,
    rfl, rfl, rfl, rfl,
    exec_sameFifo h rfl, exec_sameIngress h rfl, exec_sameDeframer h rfl, exec_sameAst h rfl, exec_sameEnvironment h⟩

/-- R53: STATUS is the sum of its bits at their places. -/
theorem statusView_eq (s : State) :
    statusView s = BitVec.ofNat 16
      (s.armed.toNat + 2 * s.dpend.toNat + 4 * s.fv.toNat + 8 * s.txAct.toNat + 16 * s.inb.toNat) := by
  have bits : ∀ armed dpend fv txAct inb : Bool,
      0#11 ++ BitVec.ofBool inb ++ BitVec.ofBool txAct ++ BitVec.ofBool fv ++ BitVec.ofBool dpend ++ BitVec.ofBool armed =
        BitVec.ofNat 16 (armed.toNat + 2 * dpend.toNat + 4 * fv.toNat + 8 * txAct.toNat + 16 * inb.toNat) := by
    decide
  exact bits ..

/-- R54: PSTATE is the sum of its codes at their places. -/
theorem pstateView_eq (s : State) :
    pstateView s = BitVec.ofNat 16
      ((match s.pst with | .awaitStart => 0 | .collecting => 1 | .awaitEnd1 => 2 | .awaitEnd2 => 3) +
        4 * (match s.ast with | .aStart => 0 | .aGotSm => 1 | .aGotAk1 => 2)) := by
  unfold pstateView
  cases s.pst <;> cases s.ast <;> rfl

/-- R242: `registerValue` answers what the register map lists. -/
theorem registerValue_of_mem_registerMap {s : State} {a : Byte} {v : Nat} (h : (a, v) ∈ registerMap s) :
    registerValue a s = some (BitVec.ofNat 16 v) := by
  simp only [registerMap, List.mem_cons, Prod.mk.injEq, List.not_mem_nil, or_false] at h
  have widened {w : Nat} (x : BitVec w) : some (x.setWidth 16) = some (BitVec.ofNat 16 x.toNat) :=
    congrArg some (BitVec.ofNat_toNat ..).symm
  rcases h with ⟨rfl, rfl⟩ | ⟨rfl, rfl⟩ | ⟨rfl, rfl⟩ | ⟨rfl, rfl⟩ | ⟨rfl, rfl⟩ | ⟨rfl, rfl⟩ | ⟨rfl, rfl⟩ | ⟨rfl, rfl⟩ |
    ⟨rfl, rfl⟩ | ⟨rfl, rfl⟩ | ⟨rfl, rfl⟩
  exacts [congrArg some (statusView_eq s), congrArg some (pstateView_eq s), rfl, rfl, rfl, widened s.len,
    widened s.flen, widened s.pcount, widened s.txLen, widened s.txCur, rfl]

/-- Settles O44: RDREG answers `registerValue`, which is the register map's row. -/
theorem rdregReadsRegisterMap : Obligations.RdregReadsRegisterMap := by
  intro s a v h
  have hexec : exec (.rdreg a) s = .next (respond .ok (BitVec.ofNat 16 v) s) := by
    simp only [exec, execRdreg, registerValue_of_mem_registerMap h]
  exact ⟨_, hexec, rfl, sameBlock_respond ..⟩

/-! ## The ack recognizer -/

theorem ackResync_ast (b : Byte) (s : State) : (ackResync b s).ast = ackResynced b s := by
  unfold ackResync ackResynced
  split <;> rfl

/-- R178: the three states of the recognizer, each with its result code and the state after it. -/
theorem astep_table (b : Byte) (s : State) :
    match s.ast with
    | .aStart => (astep b s).1 = .ok ∧ (astep b s).2.ast = if b = startMarker then .aGotSm else .aStart
    | .aGotSm => (astep b s).1 = .ok ∧ (astep b s).2.ast = if b = ackByte1 then .aGotAk1 else ackResynced b s
    | .aGotAk1 =>
      if b = ackByte2 then (astep b s).1 = .ack ∧ (astep b s).2.ast = .aStart
      else (astep b s).1 = .ok ∧ (astep b s).2.ast = ackResynced b s := by
  cases h : s.ast with
  | aStart => simp only [astep, h]; split <;> simp [h]
  | aGotSm => simp only [astep, h]; split <;> simp [ackResync_ast]
  | aGotAk1 => simp only [astep, h]; split <;> simp [ackResync_ast]

/-- R179: PACK answers with the recognizer's code and leaves its AST. -/
theorem exec_pack_answers (b : Byte) (s : State) :
    ∃ t, exec (.pack b) s = .next t ∧ Answered (astep b s).1 (b.setWidth 16) s t ∧ t.ast = (astep b s).2.ast := by
  refine ⟨_, execPack_eq b s, ?_, rfl⟩
  rw [Answered, respond_responses, astep_frame b s]
  rfl

/-- Settles O32: PACK is `astep` and its answer; the table gives AST and the code, the frame the rest. -/
theorem packFollowsRecognizer : Obligations.PackFollowsRecognizer := by
  intro b s
  obtain ⟨t, h, hanswer, hast⟩ := exec_pack_answers b s
  have htable := astep_table b s
  rw [← hast] at htable
  refine ⟨t, h, exec_sameFifo h rfl, exec_sameIngress h rfl, exec_sameDeframer h rfl, exec_sameTransmit h rfl,
    exec_sameEnvironment h, ?_⟩
  generalize (astep b s).1 = rc at hanswer htable
  revert htable
  cases s.ast with
  | aStart | aGotSm => rintro ⟨rfl, hast⟩; exact ⟨hanswer, hast⟩
  | aGotAk1 =>
    dsimp only
    split
    all_goals rintro ⟨rfl, hast⟩; exact ⟨hanswer, hast⟩

/-! ## The deframer -/

theorem resync_rxpay (b : Byte) (s : State) : (resync b s).rxpay = s.rxpay := by
  unfold resync
  split <;> rfl

/-- R187: a deframer step stores a byte in COLLECTING only. -/
theorem dstep_rxpay {b : Byte} {s t : State} {rc : ResultCode} (h : dstep b s = .ok (rc, t))
    (hp : s.pst ≠ .collecting) : t.rxpay = s.rxpay := by
  rcases dstep_eq_ok.mp h with ⟨-, -, rfl⟩ | ⟨hc, -⟩ | ⟨-, -, rfl⟩ | ⟨-, -, -, rfl⟩ | ⟨-, -, -, rfl⟩
  · split <;> rfl
  · exact absurd hc hp
  · split
    · rfl
    · exact resync_rxpay b s
  · rfl
  · exact resync_rxpay b s

/-- R172: AWAIT_START is left by the start of a frame. -/
theorem dstep_of_awaitStart {b : Byte} {s t : State} {rc : ResultCode} (h : dstep b s = .ok (rc, t))
    (hs : s.pst = .awaitStart) (ht : t.pst ≠ .awaitStart) : t = startFrame s := by
  rcases dstep_eq_ok.mp h with ⟨-, -, rfl⟩ | ⟨hp, -⟩ | ⟨hp, -⟩ | ⟨hp, -⟩ | ⟨hp, -⟩
  · split
    · rfl
    next hb => exact absurd hs (by simpa [hb] using ht)
  all_goals rw [hs] at hp; cases hp

/-- R187: what a deframer step leaves of RXPAY, FV and PCOUNT. -/
theorem dstep_payload {b : Byte} {s t : State} {rc : ResultCode} (h : dstep b s = .ok (rc, t)) :
    (s.pst ≠ .collecting → ∀ k, t.byteAt .rxpay k = s.byteAt .rxpay k) ∧
      (s.pst = .awaitStart → t.pst ≠ .awaitStart → t.fv = false ∧ t.pcount = 0) := by
  refine ⟨fun hp => byteAt_congr (sp := .rxpay) (dstep_rxpay h hp) (by rw [dstep_frame h]), fun hs ht => ?_⟩
  rw [dstep_of_awaitStart h hs ht]
  exact ⟨rfl, rfl⟩

/-- Settles O31: PARSE and PARSEF by their deframer step; the other operations write nothing the statement speaks of. -/
theorem payloadKeptUntilCollecting : Obligations.PayloadKeptUntilCollecting := by
  intro i s t h
  cases exec_cases h with
  | parsed _ _ _ _ _ hd => exact (dstep_payload hd :)
  | parsedHead _ _ _ _ _ _ _ hd => exact (dstep_payload hd :)
  | answered => exact ⟨fun _ _ => rfl, fun hs ht => absurd hs ht⟩
  | _ =>
    rw [exec_eq_overwrite h]
    exact ⟨fun _ _ => rfl, fun hs ht => absurd hs ht⟩

/-! ## The wire image -/

/-- The wire images: an ack frame, or a frame of at most 255 payload bytes (R100, R101). -/
def IsWireImage (image : List Byte) : Prop :=
  image = ackBytes ∨ ∃ payload : List Byte, payload.length ≤ 255 ∧ image = frameBytes payload

theorem isWireImage_ackBytes : IsWireImage ackBytes := .inl rfl

/-- R212: BUILD composes a frame of as many payload bytes as a byte can count. -/
theorem isWireImage_stagedFrame (n : Byte) (s : State) :
    IsWireImage (frameBytes ((List.range n.toNat).map fun k => s.byteAt .txpay k)) :=
  .inr ⟨_, by have := n.isLt; simp only [List.length_map, List.length_range]; omega, rfl⟩

/-- R50: a wire image holds 3 to 258 bytes. -/
theorem IsWireImage.length_bounds {image : List Byte} (h : IsWireImage image) :
    3 ≤ image.length ∧ image.length ≤ 258 := by
  rcases h with rfl | ⟨payload, hlen, rfl⟩
  · decide
  · rw [frameBytes_length]; omega

theorem frameBytes_payload {payload : List Byte} {k : Nat} (hk : k < payload.length) :
    (frameBytes payload)[1 + k]? = some payload[k] := by
  rw [Nat.add_comm, frameBytes, List.cons_append, List.getElem?_cons_succ, List.getElem?_append_left hk,
    List.getElem?_eq_getElem hk]

theorem frameBytes_endMarker1 (payload : List Byte) : (frameBytes payload)[payload.length + 1]? = some endMarker1 := by
  simp [frameBytes]

theorem frameBytes_endMarker2 (payload : List Byte) : (frameBytes payload)[payload.length + 2]? = some endMarker2 := by
  simp [frameBytes]

/-- An entry of a loaded image holds the image's byte. -/
theorem ImageLoaded.read_txw {image : List Byte} {s t : State} (h : ImageLoaded image s t) {j : Nat} {b : Byte}
    (hj : image[j]? = some b) : t.txw.read? j = some b := by
  obtain ⟨m, rfl, hread, -⟩ := h
  obtain ⟨hlt, -⟩ := List.getElem?_eq_some_iff.mp hj
  exact (hread j).trans ((if_pos hlt).trans hj)

theorem ImageLoaded.byteAt_txw {image : List Byte} {s t : State} (h : ImageLoaded image s t) {j : Nat} {b : Byte}
    (hj : image[j]? = some b) : t.byteAt .txw j = b :=
  byteAt_of_read (sp := .txw) (h.read_txw hj)

/-- The entries above a loaded image are the old ones. -/
theorem ImageLoaded.byteAt_txw_above {image : List Byte} {s t : State} (h : ImageLoaded image s t) {j : Nat}
    (hj : image.length ≤ j) : t.byteAt .txw j = s.byteAt .txw j := by
  obtain ⟨m, rfl, hread, -⟩ := h
  exact byteAt_congr_read (sp := .txw) ((hread j).trans (if_neg hj.not_gt)) rfl

/-- TXLEN of a loaded image is its length, which fits 9 bits. -/
theorem ImageLoaded.txLen_toNat {image : List Byte} {s t : State} (h : ImageLoaded image s t)
    (hlen : image.length ≤ 258) : t.txLen.toNat = image.length := by
  obtain ⟨m, rfl, -⟩ := h
  exact (BitVec.toNat_ofNat ..).trans (Nat.mod_eq_of_lt (by omega))

theorem ImageLoaded.wireImage_eq {image : List Byte} {s t : State} (h : ImageLoaded image s t)
    (hlen : image.length ≤ 258) : wireImage t = image := by
  refine List.ext_getElem (by simp [wireImage, h.txLen_toNat hlen]) fun k _ hk => ?_
  simp only [wireImage, List.getElem_map, List.getElem_range]
  exact h.byteAt_txw (List.getElem?_eq_getElem hk)

/-! ## The framer and the pump -/

/-- Settles O36: the frame loaded, read back place by place. -/
theorem buildComposesFrame : Obligations.BuildComposesFrame := by
  intro n s hidle
  obtain ⟨t, h, ⟨hbusy, -⟩ | ⟨-, u, rfl, hu⟩⟩ := execBuild_answers n s
  · simp [hidle] at hbusy
  replace h : exec (.build n) s = .next (respond .ok 0 u) := h
  have hwire := isWireImage_stagedFrame n s
  generalize hpayload : (List.range n.toNat).map (fun k => s.byteAt .txpay k) = payload at hu hwire
  have hlen : payload.length = n.toNat := by rw [← hpayload, List.length_map, List.length_range]
  have hcount : u.txLen.toNat = n.toNat + 3 := by
    rw [hu.txLen_toNat hwire.length_bounds.2, frameBytes_length, hlen]
  have hput : ∀ k < n.toNat, u.byteAt .txw (1 + k) = s.byteAt .txpay k := by
    intro k hk
    rw [hu.byteAt_txw (frameBytes_payload (hlen ▸ hk))]
    simp [← hpayload]
  refine ⟨_, h, ?_, hu.byteAt_txw rfl, hput, hu.byteAt_txw (hlen ▸ frameBytes_endMarker1 payload),
    hu.byteAt_txw (hlen ▸ frameBytes_endMarker2 payload),
    fun j hj => hu.byteAt_txw_above (by rwa [frameBytes_length, hlen]), hcount, ?_⟩
  all_goals obtain ⟨m, rfl, -⟩ := hu
  · rfl
  · exact ⟨rfl, rfl, fun _ => rfl, rfl, exec_sameFifo h rfl, exec_sameIngress h rfl, exec_sameDeframer h rfl,
      exec_sameAst h rfl, exec_sameEnvironment h⟩

/-- Settles O37: the ack frame loaded, read back place by place. -/
theorem buildackComposesAck : Obligations.BuildackComposesAck := by
  intro s hidle
  obtain ⟨t, h, ⟨hbusy, -⟩ | ⟨-, u, rfl, hu⟩⟩ := execBuildack_answers s
  · simp [hidle] at hbusy
  replace h : exec .buildack s = .next (respond .ok 0 u) := h
  refine ⟨_, h, ?_, hu.byteAt_txw rfl, hu.byteAt_txw rfl, hu.byteAt_txw rfl, fun j hj => hu.byteAt_txw_above hj, ?_⟩
  all_goals obtain ⟨m, rfl, -⟩ := hu
  · rfl
  · exact ⟨rfl, rfl, rfl, fun _ => rfl, rfl, exec_sameFifo h rfl, exec_sameIngress h rfl, exec_sameDeframer h rfl,
      exec_sameAst h rfl, exec_sameEnvironment h⟩

/-- R214: the cursor's move writes TXCUR and TXACT only. -/
theorem advancePump_frame (s : State) :
    (advancePump s).2 = { s with txCur := (advancePump s).2.txCur, txAct := (advancePump s).2.txAct } := by
  rw [advancePump_eq]
  split <;> rfl

theorem exec_txstep_sends {s : State} (hact : s.txAct = true) (hready : s.txWritable = true)
    (hcur : s.txCur.toNat < 258) :
    exec .txstep s = .next (respond (advancePump s).1 (byteData (s.byteAt .txw s.txCur.toNat))
      (emit (s.byteAt .txw s.txCur.toNat) (advancePump s).2)) :=
  execTxstep_eq_next.mpr (.inr (.inr ⟨hact, hready, hcur, rfl⟩))

/-- Settles O39: the sending case of TXSTEP; the pump's two ends give the code and the cursor. -/
theorem txstepSendsByte : Obligations.TxstepSendsByte := by
  intro s hact hready hcur
  have h := exec_txstep_sends hact hready hcur
  refine ⟨_, h, ?sent, ?moved, ?length, ?image, ?staged, exec_sameFifo h rfl, exec_sameIngress h rfl,
    exec_sameDeframer h rfl, exec_sameAst h rfl, exec_sameEnvironment h⟩
  case moved =>
    rw [advancePump_eq]
    split
    · exact ⟨rfl, rfl, rfl⟩
    · exact ⟨rfl, rfl, hact⟩
  all_goals rw [advancePump_frame]
  case image | staged => exact fun _ => rfl
  all_goals rfl

end Sys2Proof.Machine
end

section
/-! PROOFS. The invariants of spec/10_state.md: each holds at reset, every step keeps it, and the reads it makes safe. -/

namespace Sys2Proof.Machine

/-! ## Invariants along a run -/

/-- What the parts of every event keep holds after any events. -/
theorem KeptByParts.performAll {P : State → Prop} (kept : KeptByParts P) {es : List Event} {s t : State} (hs : P s)
    (h : performAll es s = .next t) : P t := by
  induction es generalizing s with
  | nil => cases h; exact hs
  | cons e es ih =>
    simp only [Machine.performAll] at h
    split at h
    next u hu => exact ih (kept.performEvent hs hu) h
    all_goals cases h

/-- A second property, each part of an event keeping it where the first property holds before. -/
theorem KeptByParts.and {P Q : State → Prop} (kept : KeptByParts P)
    (hexec : ∀ {i : Instr} {s t : State}, P s → Q s → Machine.exec i s = .next t → Q t)
    (hanswer : ∀ (rc : ResultCode) (data : Data) {s : State}, Q s → Q (respond rc data s))
    (henvironment : ∀ {s t : State}, Q s → EnvChange s t → Q t) (hreset : ∀ s : State, Q (resetBlock s)) :
    KeptByParts fun s => P s ∧ Q s where
  exec hs h := ⟨kept.exec hs.1 h, hexec hs.1 hs.2 h⟩
  answer rc data _ hs := ⟨kept.answer rc data hs.1, hanswer rc data hs.2⟩
  environment hs h := ⟨kept.environment hs.1 h, henvironment hs.2 h⟩
  reset hs := ⟨kept.reset hs.1, hreset _⟩

/-! ## The receive-interrupt bits (R40) -/

/-- R141: a PUSH sets INB while ARMED = 1 and leaves the other two bits. -/
theorem IngressInv.pushed {s t : State} (hs : IngressInv s) (hinb : t.inb = (s.inb || s.armed))
    (harmed : t.armed = s.armed) (hdpend : t.dpend = s.dpend) : IngressInv t := by
  obtain ⟨hexclusive, hwithin⟩ := hs
  unfold IngressInv
  rw [hinb, harmed, hdpend]
  refine ⟨hexclusive, fun h => ?_⟩
  rcases (Bool.or_eq_true ..).mp h with hinb | harmed
  · exact hwithin hinb
  · exact harmed

theorem ingressInv_endBurst (s : State) : IngressInv (endBurst s) := by simp [IngressInv]

theorem ingressInv_rearmIngress (s : State) : IngressInv (rearmIngress s) := by simp [IngressInv]

theorem ingressInv_resetBlock (s : State) : IngressInv (resetBlock s) := ⟨nofun, nofun⟩

theorem exec_keeps_ingressInv {i : Instr} {s t : State} (hs : IngressInv s) (h : exec i s = .next t) :
    IngressInv t := by
  cases exec_cases h with
  | overflowed => exact hs.pushed (enterBurst_inb s) (enterBurst_armed s) (enterBurst_dpend s)
  | pushed => exact hs.pushed rfl rfl rfl
  | detached => exact ingressInv_endBurst s
  | rearmed => exact ingressInv_rearmIngress s
  | answered => exact hs
  | _ => rw [exec_eq_overwrite h]; exact hs

theorem keptByParts_ingressInv : KeptByParts IngressInv where
  exec := exec_keeps_ingressInv
  answer _ _ _ hs := hs
  environment hs h := h.keeps hs
  reset _ := ingressInv_resetBlock _

/-- Settles O50: only PUSH, DETACH and REARM write the bits. -/
theorem stepKeepsIngressInv : Obligations.StepKeepsIngressInv := fun _ _ => keptByParts_ingressInv.step

/-! ## The deframer's counters (R44) -/

theorem deframerInv_of_awaitStart {s : State} (h : s.pst = .awaitStart) : DeframerInv s := by
  simp [DeframerInv, h]

/-- R172: a frame starts with no byte collected, at its end markers where LEN is 0. -/
theorem deframerInv_startFrame (s : State) : DeframerInv (startFrame s) := by
  simp only [DeframerInv, startFrame_pst, startFrame_pcount, startFrame_flen]
  split
  next hlen => simp [hlen]
  next hlen => exact ⟨fun _ => by bv_omega, nofun, nofun⟩

theorem deframerInv_resync (b : Byte) (s : State) : DeframerInv (resync b s) := by
  unfold resync
  split
  · exact deframerInv_startFrame s
  · exact deframerInv_of_awaitStart rfl

theorem deframerInv_resetBlock (s : State) : DeframerInv (resetBlock s) := deframerInv_of_awaitStart rfl

/-- R173: the collected byte is counted, and the frame is at its end markers when PCOUNT reaches FLEN. -/
theorem DeframerInv.collectByte {b : Byte} {s t : State} (hs : DeframerInv s) (hp : s.pst = .collecting)
    (h : collectByte b s = .ok t) : DeframerInv t := by
  obtain ⟨-, rfl⟩ := collectByte_eq_ok.mp h
  have hlt : s.pcount < s.flen := hs.1 hp
  by_cases hfull : s.pcount + 1 = s.flen
  · simp only [DeframerInv, if_pos hfull]
    exact ⟨nofun, fun _ => hfull, nofun⟩
  · have hnext : s.pcount + 1 < s.flen := by bv_omega
    simp only [DeframerInv, if_neg hfull, hp]
    exact ⟨fun _ => hnext, nofun, nofun⟩

theorem DeframerInv.dstep {b : Byte} {s t : State} {rc : ResultCode} (hs : DeframerInv s)
    (h : dstep b s = .ok (rc, t)) : DeframerInv t := by
  rcases dstep_eq_ok.mp h with ⟨-, -, rfl⟩ | ⟨hp, -, hc⟩ | ⟨hp, -, rfl⟩ | ⟨-, -, -, rfl⟩ | ⟨-, -, -, rfl⟩
  · split
    · exact deframerInv_startFrame s
    · exact hs
  · exact hs.collectByte hp hc
  · split
    · exact ⟨nofun, nofun, fun _ => hs.2.1 hp⟩
    · exact deframerInv_resync b s
  · exact deframerInv_of_awaitStart rfl
  · exact deframerInv_resync b s

theorem DeframerInv.head_removed {s : State} (hs : DeframerInv s) : DeframerInv (fifoAdvanced s) := hs

theorem exec_keeps_deframerInv {i : Instr} {s t : State} (hs : DeframerInv s) (h : exec i s = .next t) :
    DeframerInv t := by
  cases exec_cases h with
  | parsed _ _ _ _ _ hd => exact (hs.dstep hd :)
  | parsedHead _ _ _ _ _ _ _ hd => exact (hs.head_removed.dstep hd :)
  | answered => exact hs
  | _ => rw [exec_eq_overwrite h]; exact hs

theorem keptByParts_deframerInv : KeptByParts DeframerInv where
  exec := exec_keeps_deframerInv
  answer _ _ _ hs := hs
  environment hs h := h.keeps hs
  reset _ := deframerInv_resetBlock _

/-- Settles O51: only the deframer's step writes the counters. -/
theorem stepKeepsDeframerInv : Obligations.StepKeepsDeframerInv := fun _ _ => keptByParts_deframerInv.step

/-! ## The transmitter's registers (R50, R51) -/

/-- R212, R213: a loaded wire image is active at its first byte. -/
theorem ImageLoaded.transmitInv {image : List Byte} {s t : State} (h : ImageLoaded image s t)
    (himage : IsWireImage image) : TransmitInv t := by
  obtain ⟨hmin, hmax⟩ := himage.length_bounds
  have hlen := h.txLen_toNat hmax
  obtain ⟨m, rfl, -⟩ := h
  refine ⟨fun _ => ?_, nofun, .inr ⟨?_, ?_⟩⟩ <;> bv_omega

/-- R214: the cursor moves on inside the image. -/
theorem TransmitInv.byte_sent {s : State} (hs : TransmitInv s) (hact : s.txAct = true)
    (hnotLast : s.txCur + 1 ≠ s.txLen) : TransmitInv { s with txCur := s.txCur + 1 } := by
  obtain ⟨hactive, -, hlen⟩ := hs
  have hlt : s.txCur < s.txLen := hactive hact
  refine ⟨fun _ => ?_, fun hidle => absurd (hact.symm.trans hidle) nofun, hlen⟩
  show s.txCur + 1 < s.txLen
  bv_omega

/-- R214: after the last byte the transmitter is idle at cursor 0. -/
theorem TransmitInv.last_byte_sent {s : State} (hs : TransmitInv s) :
    TransmitInv { s with txCur := 0, txAct := false } :=
  ⟨nofun, fun _ => rfl, hs.2.2⟩

theorem transmitInv_resetBlock (s : State) : TransmitInv (resetBlock s) := ⟨nofun, fun _ => rfl, .inl rfl⟩

theorem exec_keeps_transmitInv {i : Instr} {s t : State} (hs : TransmitInv s) (h : exec i s = .next t) :
    TransmitInv t := by
  cases exec_cases h with
  | frameBuilt n _ _ _ hu => exact (hu.transmitInv (isWireImage_stagedFrame n s) :)
  | ackBuilt _ _ _ hu => exact (hu.transmitInv isWireImage_ackBytes :)
  | byteSent _ _ _ hact _ _ hnotLast => exact hs.byte_sent hact hnotLast
  | lastByteSent => exact hs.last_byte_sent
  | answered => exact hs
  | _ => rw [exec_eq_overwrite h]; exact hs

theorem keptByParts_transmitInv : KeptByParts TransmitInv where
  exec := exec_keeps_transmitInv
  answer _ _ _ hs := hs
  environment hs h := h.keeps hs
  reset _ := transmitInv_resetBlock _

/-- Settles O52: only the composing operations and TXSTEP write the registers. -/
theorem stepKeepsTransmitInv : Obligations.StepKeepsTransmitInv := fun _ _ => keptByParts_transmitInv.step

/-! ## The entries the FIFO holds were written (R147) -/

theorem FifoWritten.entry_added {s t : State} {d : Byte} (hs : FifoWritten s)
    (hlink : s.wrIdx = (s.rdIdx + s.fill) % s.params.pCap) (hfifo : t.fifo = s.fifo.write s.wrIdx d)
    (hparams : t.params = s.params) (hrd : t.rdIdx = s.rdIdx) (hfill : t.fill = s.fill + 1) : FifoWritten t := by
  intro k hk
  rw [hfifo, hparams, hrd, Memory.read?_write]
  split
  · rfl
  next hother =>
    have hne : k ≠ s.fill := fun hkf => hother (by rw [hkf, hlink])
    exact hs k (by omega)

theorem FifoWritten.head_removed {s : State} (hs : FifoWritten s) : FifoWritten (fifoAdvanced s) := by
  intro k hk
  have hplace : ((s.rdIdx + 1) % s.params.pCap + k) % s.params.pCap = (s.rdIdx + (k + 1)) % s.params.pCap := by
    rw [Nat.mod_add_mod, Nat.add_right_comm, Nat.add_assoc]
  show (s.fifo.read? (((s.rdIdx + 1) % s.params.pCap + k) % s.params.pCap)).isSome
  rw [hplace]
  exact hs (k + 1) (Nat.add_lt_of_lt_sub hk)

theorem fifoWritten_resetBlock (s : State) : FifoWritten (resetBlock s) := nofun

theorem exec_keeps_fifoWritten {i : Instr} {s t : State} (hfifo : FifoInv s) (hs : FifoWritten s)
    (h : exec i s = .next t) : FifoWritten t := by
  obtain ⟨-, -, -, -, hlink⟩ := hfifo
  cases exec_cases h with
  | overflowed => rw [enterBurst_eq]; exact hs
  | pushed => exact hs.entry_added hlink rfl rfl rfl rfl
  | popped => exact hs.head_removed
  | parsedHead _ _ _ _ _ _ _ hd => exact (dstep_keeps (P := FifoWritten) hd hs.head_removed :)
  | recognizedHead _ _ _ _ _ _ _ ha => exact (astep_keeps (P := FifoWritten) ha hs.head_removed :)
  | answered => exact hs
  | _ => rw [exec_eq_overwrite h]; exact hs

theorem keptByParts_fifoWritten : KeptByParts fun s => FifoInv s ∧ FifoWritten s :=
  keptByParts_fifoInv.and exec_keeps_fifoWritten (fun _ _ _ hs => hs) (fun hs h => h.keeps hs) fifoWritten_resetBlock

/-! ## The payload collected or delivered was written (R45) -/

theorem payloadWritten_startFrame (s : State) : PayloadWritten (startFrame s) := ⟨nofun, fun _ => nofun⟩

/-- R45: outside AWAIT_START no payload is valid. -/
theorem PayloadWritten.fv_eq_false {s : State} (hs : PayloadWritten s) (hp : s.pst ≠ .awaitStart) : s.fv = false :=
  Bool.eq_false_iff.mpr fun hfv => hp (hs.1 hfv).1

theorem payloadWritten_resync (b : Byte) {s : State} (hfv : s.fv = false) : PayloadWritten (resync b s) := by
  unfold resync
  split
  · exact payloadWritten_startFrame s
  · simp [PayloadWritten, hfv]

theorem payloadWritten_resetBlock (s : State) : PayloadWritten (resetBlock s) := ⟨nofun, fun _ => nofun⟩

theorem PayloadWritten.collectByte {b : Byte} {s t : State} (hs : PayloadWritten s) (hp : s.pst ≠ .awaitStart)
    (h : collectByte b s = .ok t) : PayloadWritten t := by
  obtain ⟨-, rfl⟩ := collectByte_eq_ok.mp h
  have hfv : s.fv = false := hs.fv_eq_false hp
  refine ⟨fun h => absurd (hfv.symm.trans h) nofun, fun _ k hk => ?_⟩
  simp only [Memory.read?_write]
  split
  · rfl
  next hother => exact hs.2 (.inr hp) k (by bv_omega)

/-- R45, R173: a payload becomes valid only with all its bytes collected. -/
theorem PayloadWritten.dstep {b : Byte} {s t : State} {rc : ResultCode} (hdef : DeframerInv s) (hs : PayloadWritten s)
    (h : dstep b s = .ok (rc, t)) : PayloadWritten t := by
  rcases dstep_eq_ok.mp h with ⟨-, -, rfl⟩ | ⟨hp, -, hc⟩ | ⟨hp, -, rfl⟩ | ⟨hp, -, -, rfl⟩ | ⟨hp, -, -, rfl⟩
  · split
    · exact payloadWritten_startFrame s
    · exact hs
  all_goals have hin : s.pst ≠ .awaitStart := by simp [hp]
  all_goals have hfv : s.fv = false := hs.fv_eq_false hin
  · exact hs.collectByte hin hc
  · split
    · exact ⟨fun h => absurd (hfv.symm.trans h) nofun, fun _ => hs.2 (.inr hin)⟩
    · exact payloadWritten_resync b hfv
  · exact ⟨fun _ => ⟨rfl, hdef.2.2 hp⟩, fun _ => hs.2 (.inr hin)⟩
  · exact payloadWritten_resync b hfv

theorem PayloadWritten.head_removed {s : State} (hs : PayloadWritten s) : PayloadWritten (fifoAdvanced s) := hs

theorem exec_keeps_payloadWritten {i : Instr} {s t : State} (hdef : DeframerInv s) (hs : PayloadWritten s)
    (h : exec i s = .next t) : PayloadWritten t := by
  cases exec_cases h with
  | parsed _ _ _ _ _ hd => exact (hs.dstep hdef hd :)
  | parsedHead _ _ _ _ _ _ _ hd => exact (hs.head_removed.dstep hdef.head_removed hd :)
  | answered => exact hs
  | _ => rw [exec_eq_overwrite h]; exact hs

theorem keptByParts_payloadWritten : KeptByParts fun s => DeframerInv s ∧ PayloadWritten s :=
  keptByParts_deframerInv.and exec_keeps_payloadWritten (fun _ _ _ hs => hs) (fun hs h => h.keeps hs)
    payloadWritten_resetBlock

/-! ## The wire image was written, and its form (R49, R100, R101) -/

theorem ImageLoaded.imageWritten {image : List Byte} {s t : State} (h : ImageLoaded image s t)
    (himage : IsWireImage image) : ImageWritten t := by
  intro k hk
  rw [h.txLen_toNat himage.length_bounds.2] at hk
  rw [h.read_txw (List.getElem?_eq_getElem hk)]
  rfl

theorem ImageLoaded.imageForm {image : List Byte} {s t : State} (h : ImageLoaded image s t)
    (himage : IsWireImage image) : ImageForm t := fun _ => by
  rw [h.wireImage_eq himage.length_bounds.2]
  exact himage

theorem imageWritten_resetBlock (s : State) : ImageWritten (resetBlock s) := nofun

theorem imageForm_resetBlock (s : State) : ImageForm (resetBlock s) := fun h => absurd rfl h

theorem exec_keeps_imageWritten {i : Instr} {s t : State} (hs : ImageWritten s) (h : exec i s = .next t) :
    ImageWritten t := by
  cases exec_cases h with
  | frameBuilt n _ _ _ hu => exact (hu.imageWritten (isWireImage_stagedFrame n s) :)
  | ackBuilt _ _ _ hu => exact (hu.imageWritten isWireImage_ackBytes :)
  | answered => exact hs
  | _ => rw [exec_eq_overwrite h]; exact hs

theorem exec_keeps_imageForm {i : Instr} {s t : State} (hs : ImageForm s) (h : exec i s = .next t) :
    ImageForm t := by
  cases exec_cases h with
  | frameBuilt n _ _ _ hu => exact (hu.imageForm (isWireImage_stagedFrame n s) :)
  | ackBuilt _ _ _ hu => exact (hu.imageForm isWireImage_ackBytes :)
  | answered => exact hs
  | _ => rw [exec_eq_overwrite h]; exact hs

theorem keptByParts_imageWritten : KeptByParts ImageWritten where
  exec := exec_keeps_imageWritten
  answer _ _ _ hs := hs
  environment hs h := h.keeps hs
  reset _ := imageWritten_resetBlock _

theorem keptByParts_imageForm : KeptByParts ImageForm where
  exec := exec_keeps_imageForm
  answer _ _ _ hs := hs
  environment hs h := h.keeps hs
  reset _ := imageForm_resetBlock _

/-- Settles O54: the FIFO's entries beside its registers, the payload beside the deframer's counters, the wire image. -/
theorem stepKeepsEntriesWritten : Obligations.StepKeepsEntriesWritten := by
  intro s t hfifo hdef hentries hpayload himage h
  obtain ⟨-, hentries'⟩ := keptByParts_fifoWritten.step ⟨hfifo, hentries⟩ h
  obtain ⟨-, hpayload'⟩ := keptByParts_payloadWritten.step ⟨hdef, hpayload⟩ h
  exact ⟨hentries', hpayload', keptByParts_imageWritten.step himage h⟩

/-- Settles O55: a wire image is loaded whole and in its form, and only then. -/
theorem stepKeepsImageForm : Obligations.StepKeepsImageForm := fun _ _ => keptByParts_imageForm.step

/-! ## Reset and the states reached from it -/

theorem spaceInv_nil (c : Params) (sp : Space) : SpaceInv c sp [] := ⟨.nil, nofun⟩

/-- Settles O48: each invariant holds after any reset, and `State.reset` differs from a reset state in nothing that they
read. -/
theorem resetMeetsInvariants : Obligations.ResetMeetsInvariants :=
  ⟨⟨FifoInv.resetBlock (s := .reset) (by decide), ingressInv_resetBlock .reset, deframerInv_resetBlock .reset,
      transmitInv_resetBlock .reset⟩,
    ⟨spaceInv_nil .., spaceInv_nil .., spaceInv_nil .., spaceInv_nil ..⟩,
    fifoWritten_resetBlock .reset, payloadWritten_resetBlock .reset, imageWritten_resetBlock .reset,
    imageForm_resetBlock .reset⟩

/-- R36: the indices meet exactly on an empty and on a full FIFO. -/
theorem FifoInv.indices_eq_iff {s : State} (hs : FifoInv s) :
    s.rdIdx = s.wrIdx ↔ s.fill = 0 ∨ s.fill = s.params.pCap := by
  obtain ⟨⟨hpos, -⟩, hrd, -, hfill, hlink⟩ := hs
  rw [hlink]
  by_cases hwrap : s.rdIdx + s.fill < s.params.pCap
  · rw [Nat.mod_eq_of_lt hwrap]; omega
  · rw [Nat.mod_eq_sub_mod (by omega), Nat.mod_eq_of_lt (by omega)]; omega

/-- Settles O57: both invariants hold at reset for every capacity, and every event keeps them. -/
theorem reachableIngressRegisters : Obligations.ReachableIngressRegisters := by
  intro c es t hwf h
  have hstart : FifoInv { State.reset with params := c } ∧ IngressInv { State.reset with params := c } :=
    ⟨FifoInv.resetBlock (s := { State.reset with params := c }) hwf, ingressInv_resetBlock .reset⟩
  have hfifo : FifoInv t := keptByParts_fifoInv.performAll hstart.1 h
  have hingress : IngressInv t := keptByParts_ingressInv.performAll hstart.2 h
  have hmeet := hfifo.indices_eq_iff
  obtain ⟨-, -, -, -, hlink⟩ := hfifo
  exact ⟨hlink, hmeet, hingress⟩

/-! ## Reads find written entries -/

/-- R177: PARSEF is PARSE of the byte taken, in the state it was taken from. -/
theorem exec_parsef_eq {s : State} (hnotEmpty : s.fill ≠ 0) (hrd : s.rdIdx < s.params.pCap) :
    exec .parsef s = exec (.parse (s.byteAt .fifo s.rdIdx)) (fifoAdvanced s) := by
  simp only [exec, execParsef, execParse, parseFrom, takeByte, fifoTake_ok hnotEmpty hrd, except_bind_ok]

/-- R180: PACKF is PACK of the byte taken, in the state it was taken from. -/
theorem exec_packf_eq {s : State} (hnotEmpty : s.fill ≠ 0) (hrd : s.rdIdx < s.params.pCap) :
    exec .packf s = exec (.pack (s.byteAt .fifo s.rdIdx)) (fifoAdvanced s) := by
  simp only [exec, execPackf, execPack, packFrom, takeByte, fifoTake_ok hnotEmpty hrd, except_bind_ok]

/-- R147: the FIFO's oldest entry was written. -/
theorem FifoWritten.head {s : State} (hs : FifoWritten s) (hrd : s.rdIdx < s.params.pCap) (hnotEmpty : s.fill ≠ 0) :
    ∃ b, s.fifo.read? s.rdIdx = some b := by
  have hhead := hs 0 (Nat.pos_of_ne_zero hnotEmpty)
  rw [Nat.add_zero, Nat.mod_eq_of_lt hrd] at hhead
  exact Option.isSome_iff_exists.mp hhead

/-- R51: an active transmitter's cursor is inside TXW. -/
theorem TransmitInv.txCur_lt {s : State} (hs : TransmitInv s) (hact : s.txAct = true) :
    s.txCur.toNat < s.txLen.toNat ∧ s.txCur.toNat < 258 := by
  obtain ⟨hactive, -, hlen⟩ := hs
  have hlt : s.txCur < s.txLen := hactive hact
  refine ⟨hlt, ?_⟩
  rcases hlen with hzero | ⟨-, hmax⟩ <;> bv_omega

/-- Settles O60: the written byte is the one `byteAt` reads. -/
theorem readsFindWrittenEntries : Obligations.ReadsFindWrittenEntries := by
  refine ⟨?fifo, ?txw, ?rxpay⟩
  case fifo =>
    rintro s ⟨-, hrd, -⟩ hwritten hnotEmpty
    obtain ⟨b, hb⟩ := hwritten.head hrd hnotEmpty
    have hbyte : s.byteAt .fifo s.rdIdx = b := byteAt_of_read (sp := .fifo) hb
    refine ⟨b, hb, ?_, hbyte ▸ exec_parsef_eq hnotEmpty hrd, hbyte ▸ exec_packf_eq hnotEmpty hrd⟩
    exact ⟨_, execPop_eq_next.mpr (.inr ⟨hnotEmpty, hrd, rfl⟩), by rw [hbyte]; rfl⟩
  case txw =>
    intro s htransmit hwritten hact hready
    obtain ⟨hwithin, hcur⟩ := htransmit.txCur_lt hact
    obtain ⟨b, hb⟩ := Option.isSome_iff_exists.mp (hwritten _ hwithin)
    refine ⟨b, hb, _, exec_txstep_sends hact hready hcur, ?_⟩
    rw [byteAt_of_read (sp := .txw) hb, advancePump_frame]
    rfl
  case rxpay =>
    intro s a hwritten hfv ha
    obtain ⟨-, hcount⟩ := hwritten.1 hfv
    obtain ⟨b, hb⟩ := Option.isSome_iff_exists.mp (hwritten.2 (.inl hfv) a.toNat (hcount ▸ ha))
    have hindex : a ≠ 255 := by bv_omega
    exact ⟨b, hb, _, exec_rdpay s hindex, by rw [byteAt_of_read (sp := .rxpay) hb]; rfl⟩

end Sys2Proof.Machine
end

section
/-! PROOFS. The statements on the byte spaces and the ports (spec/20_memory.md): every space within its size, the
FIFO as a queue, the two orders of a PUSH and a POP, the answers outside a space. -/

namespace Sys2Proof.Machine

/-! ## The spaces stay within their sizes (R70) -/

/-- R17: a MemWrite inside the space. -/
theorem SpaceInv.write {c : Params} {sp : Space} {m : Memory} {i : Nat} (hm : SpaceInv c sp m)
    (hi : i < spaceSize c sp) (v : Byte) : SpaceInv c sp (m.write i v) :=
  ⟨Memory.write_wf i v hm.1, Memory.write_bound hi hm.2⟩

/-- R173: the deframer writes RXPAY at PCOUNT, and only where that index is inside RXPAY. -/
theorem spaceInv_rxpay_of_dstep {b : Byte} {s t : State} {rc : ResultCode} (hs : SpaceInv s.params .rxpay s.rxpay)
    (h : dstep b s = .ok (rc, t)) : SpaceInv s.params .rxpay t.rxpay := by
  by_cases hp : s.pst = .collecting
  · have hstored : rc = .ok ∧ collectByte b s = .ok t := by simpa [hp] using dstep_eq_ok.mp h
    obtain ⟨hindex, rfl⟩ := collectByte_eq_ok.mp hstored.2
    exact hs.write hindex b
  · rw [dstep_rxpay h hp]
    exact hs

theorem MemoryInv.dstep {b : Byte} {s t : State} {rc : ResultCode} (hs : MemoryInv s) (h : dstep b s = .ok (rc, t)) :
    MemoryInv t := by
  obtain ⟨hfifo, hrxpay, htxpay, htxw⟩ := hs
  have hrxpay' := spaceInv_rxpay_of_dstep hrxpay h
  exact dstep_keeps h ⟨hfifo, hrxpay', htxpay, htxw⟩

/-- R212, R213: a wire image is loaded inside TXW. -/
theorem MemoryInv.imageLoaded {image : List Byte} {s t : State} (hs : MemoryInv s) (h : ImageLoaded image s t) :
    MemoryInv t := by
  obtain ⟨hfifo, hrxpay, htxpay, htxw⟩ := hs
  obtain ⟨m, rfl, -, hm⟩ := h
  exact ⟨hfifo, hrxpay, htxpay, hm htxw⟩

theorem MemoryInv.head_removed {s : State} (hs : MemoryInv s) : MemoryInv (fifoAdvanced s) := hs

theorem memoryInv_resetBlock (s : State) : MemoryInv (resetBlock s) :=
  ⟨spaceInv_nil .., spaceInv_nil .., spaceInv_nil .., spaceInv_nil ..⟩

/-- R70: PUSH writes the FIFO, the deframer RXPAY, WRPAY TXPAY, the composing operations TXW, each inside the space. -/
theorem exec_keeps_memoryInv {i : Instr} {s t : State} (hs : MemoryInv s) (h : exec i s = .next t) : MemoryInv t := by
  obtain ⟨hfifo, hrxpay, htxpay, htxw⟩ := id hs
  cases exec_cases h with
  | pushed d _ _ hwr => exact ⟨hfifo.write hwr d, hrxpay, htxpay, htxw⟩
  | staged _ d _ ha => exact ⟨hfifo, hrxpay, htxpay.write (byte_lt_255 ha) d, htxw⟩
  | parsed _ _ _ _ _ hd => exact (hs.dstep hd :)
  | parsedHead _ _ _ _ _ _ _ hd => exact (hs.head_removed.dstep hd :)
  | frameBuilt _ _ _ _ hu => exact (hs.imageLoaded hu :)
  | ackBuilt _ _ _ hu => exact (hs.imageLoaded hu :)
  | overflowed => rw [enterBurst_eq]; exact hs
  | answered => exact hs
  | _ => rw [exec_eq_overwrite h]; exact hs

theorem keptByParts_memoryInv : KeptByParts MemoryInv where
  exec := exec_keeps_memoryInv
  answer _ _ _ hs := hs
  environment hs h := h.keeps hs
  reset _ := memoryInv_resetBlock _

/-- Settles O53: the four writers of the spaces write inside them. -/
theorem stepKeepsMemoryInv : Obligations.StepKeepsMemoryInv := fun _ _ => keptByParts_memoryInv.step

/-! ## The FIFO as a queue (R82, R148) -/

theorem fifoContents_length (s : State) : (fifoContents s).length = s.fill := by simp [fifoContents]

theorem fifoContents_of_empty {s : State} (h : s.fill = 0) : fifoContents s = [] :=
  List.eq_nil_of_length_eq_zero ((fifoContents_length s).trans h)

theorem SameFifo.fifoContents_eq {s t : State} (h : SameFifo s t) (hparams : t.params = s.params) :
    fifoContents t = fifoContents s := by
  simp only [fifoContents, h.rdIdx, h.fill, h.bytes, hparams]

/-- R145: what is left when the oldest entry is removed. -/
theorem fifoContents_fifoAdvanced (s : State) : fifoContents (fifoAdvanced s) = (fifoContents s).drop 1 := by
  have hplace (k : Nat) :
      ((s.rdIdx + 1) % s.params.pCap + k) % s.params.pCap = (s.rdIdx + (k + 1)) % s.params.pCap := by
    rw [Nat.mod_add_mod, Nat.add_right_comm, Nat.add_assoc]
  show (List.range (s.fill - 1)).map
      (fun k => s.byteAt .fifo (((s.rdIdx + 1) % s.params.pCap + k) % s.params.pCap)) = _
  unfold fifoContents
  cases s.fill with
  | zero => rfl
  | succ n => simp [hplace, List.range_succ_eq_map, Function.comp_def]

/-- R36: WRIDX is the place of none of the entries the FIFO holds. -/
theorem FifoInv.entry_ne_wrIdx {s : State} (hs : FifoInv s) {k : Nat} (hk : k < s.fill)
    (hnotFull : s.fill ≠ s.params.pCap) : (s.rdIdx + k) % s.params.pCap ≠ s.wrIdx := by
  obtain ⟨-, -, -, hfill, hlink⟩ := hs
  rw [hlink]
  intro hsame
  have hmod : k % s.params.pCap = s.fill % s.params.pCap := Nat.ModEq.add_left_cancel' s.rdIdx hsame
  rw [Nat.mod_eq_of_lt (by omega), Nat.mod_eq_of_lt (by omega)] at hmod
  omega

/-- R141: a byte stored at WRIDX is the newest of the FIFO. -/
theorem FifoInv.fifoContents_entry_added {s t : State} {d : Byte} (hs : FifoInv s) (hnotFull : s.fill ≠ s.params.pCap)
    (hbyte : t.byteAt .fifo s.wrIdx = d) (hbytes : ∀ i, i ≠ s.wrIdx → t.byteAt .fifo i = s.byteAt .fifo i)
    (hfill : t.fill = s.fill + 1) (hrd : t.rdIdx = s.rdIdx) (hparams : t.params = s.params) :
    fifoContents t = fifoContents s ++ [d] := by
  unfold fifoContents
  rw [hfill, hrd, hparams, List.range_succ, List.map_append]
  congr 1
  · exact List.map_congr_left fun k hk => hbytes _ (hs.entry_ne_wrIdx (List.mem_range.mp hk) hnotFull)
  · obtain ⟨-, -, -, -, hlink⟩ := hs
    rw [List.map_singleton, ← hlink, hbyte]

/-- R141, R146: PUSH adds its byte behind the others, or nothing. -/
theorem exec_push_fifoContents {d : Byte} {s t : State} (hs : FifoInv s) (h : exec (.push d) s = .next t) :
    fifoContents t = fifoContents s ++ addedBytes (.push d) s := by
  rcases execPush_eq_next.mp h with ⟨hfull, rfl⟩ | ⟨hnotFull, -, rfl⟩
  · rw [addedBytes, if_pos hfull, List.append_nil, enterBurst_eq]
    rfl
  · rw [addedBytes, if_neg hnotFull]
    exact hs.fifoContents_entry_added hnotFull (byteAt_write_same s .fifo s.wrIdx d)
      (fun _ hi => byteAt_write_ne s .fifo d hi) rfl rfl rfl

/-- R143, R145: POP, PARSEF and PACKF remove the oldest byte, if there is one. -/
theorem exec_removing_fifoContents {i : Instr} {s t : State} (hi : removesFifo i = true) (h : exec i s = .next t) :
    fifoContents t = (fifoContents s).drop 1 := by
  have hturnedAway (hempty : s.fill = 0) : fifoContents (respond .underflow 0 s) = (fifoContents s).drop 1 := by
    rw [fifoContents_of_empty hempty]
    exact fifoContents_of_empty (s := respond .underflow 0 s) hempty
  cases i with
  | pop =>
    rcases execPop_eq_next.mp h with ⟨hempty, rfl⟩ | ⟨-, -, rfl⟩
    · exact hturnedAway hempty
    · exact fifoContents_fifoAdvanced s
  | parsef =>
    rcases execParsef_eq_next.mp h with ⟨hempty, rfl⟩ | ⟨-, -, rc, u, hd, rfl⟩
    · exact hturnedAway hempty
    · exact (dstep_keeps (P := fun u => fifoContents u = _) hd (fifoContents_fifoAdvanced s) :)
  | packf =>
    rcases execPackf_eq_next.mp h with ⟨hempty, rfl⟩ | ⟨-, -, rfl⟩
    · exact hturnedAway hempty
    · rw [astep_frame]
      exact fifoContents_fifoAdvanced s
  | _ => cases hi

/-- R82: one operation keeps the queue: what was held and is added is what is removed and is still held. -/
theorem exec_keeps_order {i : Instr} {s t : State} (hs : FifoInv s) (h : exec i s = .next t) :
    fifoContents s ++ addedBytes i s = removedBytes i s ++ fifoContents t := by
  cases i with
  | push d => exact (exec_push_fifoContents hs h).symm
  | pop | parsef | packf =>
    rw [exec_removing_fifoContents rfl h]
    exact (List.append_nil _).trans (List.take_append_drop 1 _).symm
  | _ =>
    rw [(exec_sameFifo h rfl).fifoContents_eq (exec_sameEnvironment h).params]
    exact List.append_nil _

theorem execAll_cons_eq_next {i : Instr} {is : List Instr} {s t : State} (h : execAll (i :: is) s = .next t) :
    ∃ u, exec i s = .next u ∧ execAll is u = .next t := by
  rw [execAll] at h
  split at h
  next u hu => exact ⟨u, hu, h⟩
  all_goals cases h

/-- R82, R148: the queue over any operations. -/
theorem execAll_keeps_order {is : List Instr} {s t : State} (hs : FifoInv s) (h : execAll is s = .next t) :
    fifoContents s ++ addedBytesAll is s = removedBytesAll is s ++ fifoContents t := by
  induction is generalizing s with
  | nil => cases h; exact List.append_nil _
  | cons i is ih =>
    obtain ⟨u, hu, hrest⟩ := execAll_cons_eq_next h
    simp only [addedBytesAll, removedBytesAll, hu]
    calc fifoContents s ++ (addedBytes i s ++ addedBytesAll is u)
        = removedBytes i s ++ (fifoContents u ++ addedBytesAll is u) := by
          rw [← List.append_assoc, exec_keeps_order hs hu, List.append_assoc]
      _ = removedBytes i s ++ removedBytesAll is u ++ fifoContents t := by
          rw [ih (exec_keeps_fifoInv hs hu) hrest, List.append_assoc]

/-- Settles O16: the queue equation; FILL is the length of the contents, so its count is the equation's lengths. -/
theorem fifoKeepsOrder : Obligations.FifoKeepsOrder := by
  intro is s t hs h
  have horder := execAll_keeps_order hs h
  have hlengths := congrArg List.length horder
  simp only [List.length_append, fifoContents_length] at hlengths
  exact ⟨horder, by omega⟩

/-! ## Both ports at once (R81) -/

/-- R114: the word of an operation decodes to it on a port where it is legal. -/
theorem decode_encode_of_legalOn {p : Port} {i : Instr} (h : i.legalOn p = true) : decode p (encode i) = .ok i := by
  have hfields : decodeFields (encodeFields i) = .ok i := by cases i <;> rfl
  rw [decode, encode, fieldsOf_wordOf, hfields]
  exact if_pos h

theorem performEvent_cmdWord_encode {i : Instr} (h : i.legalOn .cmd = true) (writable : Bool) (s : State) :
    performEvent (.cmdWord (encode i) writable) s = exec i { s with txWritable := writable, port := .cmd } :=
  issueWord_of_decode_ok (decode_encode_of_legalOn h) _

theorem performEvent_rxWord_encode {i : Instr} (h : i.legalOn .rx = true) (s : State) :
    performEvent (.rxWord (encode i)) s = exec i { s with port := .rx } :=
  issueWord_of_decode_ok (decode_encode_of_legalOn h) _

theorem performAll_pair {e₁ e₂ : Event} {s u t : State} (h₁ : performEvent e₁ s = .next u)
    (h₂ : performEvent e₂ u = .next t) : performAll [e₁, e₂] s = .next t := by
  simp only [performAll, h₁, h₂]

/-- R120, R122: the word of an OK whose DATA is a byte. -/
theorem responseWord_ok_byte (b : Byte) : responseWord .ok (b.setWidth 16) = b.setWidth 32 := by
  have hzeros : (.ok : ResultCode).code ++ 0#12 = 0#16 := rfl
  apply BitVec.eq_of_toNat_eq
  rw [responseWord, hzeros, BitVec.toNat_append]
  simp only [BitVec.toNat_setWidth, BitVec.toNat_zero, Nat.zero_shiftLeft, Nat.zero_or]
  omega

/-- R36: on an empty FIFO both indices are the same. -/
theorem FifoInv.wrIdx_of_empty {s : State} (hs : FifoInv s) (hempty : s.fill = 0) : s.wrIdx = s.rdIdx := by
  obtain ⟨-, hrd, -, -, hlink⟩ := hs
  rw [hlink, hempty, Nat.add_zero, Nat.mod_eq_of_lt hrd]

/-- R143: POP on an empty FIFO is answered UNDERFLOW and nothing else. -/
theorem exec_pop_of_empty {s : State} (hempty : s.fill = 0) : exec .pop s = .next (respond .underflow 0 s) :=
  execPop_eq_next.mpr (.inl ⟨hempty, rfl⟩)

/-- Settles O11: POP first meets the empty FIFO; PUSH first stores the byte at RDIDX, where POP reads it. -/
theorem bothPortOrdersAdmitted : Obligations.BothPortOrdersAdmitted := by
  intro s b writable hs hempty
  have hwrRd : s.wrIdx = s.rdIdx := hs.wrIdx_of_empty hempty
  obtain ⟨⟨hpos, -⟩, hrd, hwr, -, -⟩ := hs
  have hnotFull : s.fill ≠ s.params.pCap := by omega
  have hpop := performEvent_cmdWord_encode (i := .pop) rfl writable
  have hpush := performEvent_rxWord_encode (i := .push b) rfl
  refine ⟨?popFirst, ?pushFirst⟩
  case popFirst =>
    obtain ⟨t, ht, hanswer, -, -, -, hfill, -⟩ := pushStoresByte b
      { respond .underflow 0 { s with txWritable := writable, port := .cmd } with port := .rx } hnotFull hwr
    refine ⟨t, performAll_pair ((hpop s).trans (exec_pop_of_empty hempty)) ((hpush _).trans ht), ?_,
      hfill.trans (congrArg (· + 1) hempty)⟩
    exact hanswer.trans (List.append_assoc ..)
  case pushFirst =>
    obtain ⟨u, hu, hanswer, hbyte, -, -, hfill, hrdIdx, -, -, -, -, -, -, henv⟩ :=
      pushStoresByte b { s with port := .rx } hnotFull hwr
    have hhead : u.byteAt .fifo u.rdIdx = b := by rw [hrdIdx, ← hwrRd]; exact hbyte
    have hrd' : u.rdIdx < u.params.pCap := by rw [hrdIdx, henv.params]; exact hrd
    have hnotEmpty : u.fill ≠ 0 := hfill ▸ Nat.succ_ne_zero _
    obtain ⟨t, ht, hanswer', -, hfill', -⟩ :=
      popRemovesOldest { u with txWritable := writable, port := .cmd } hnotEmpty hrd'
    refine ⟨t, performAll_pair ((hpush s).trans hu) ((hpop u).trans ht), ?_,
      Nat.succ.inj (hfill'.trans hfill) |>.trans hempty⟩
    calc t.responses
        = u.responses ++ [(.cmd, responseWord .ok ((u.byteAt .fifo u.rdIdx).setWidth 16))] := hanswer'
      _ = s.responses ++ [(.rx, 0x00000000#32), (.cmd, b.setWidth 32)] := by
          rw [hhead, responseWord_ok_byte, hanswer]
          exact List.append_assoc ..

/-! ## Outside the spaces and the register map (R71, R242) -/

/-- R242: 0x0B and above is no register's address. -/
theorem registerValue_of_unassigned {a : Byte} (h : 0x0B ≤ a.toNat) (s : State) : registerValue a s = none := by
  obtain ⟨n, hn⟩ := Nat.exists_eq_add_of_le' h
  rw [registerValue, hn]
  rfl

theorem exec_rdreg_of_unassigned {a : Byte} (h : 0x0B ≤ a.toNat) (s : State) :
    exec (.rdreg a) s = .next (respond .range 0 s) := by
  simp only [exec, execRdreg, registerValue_of_unassigned h]

/-- Settles O45: each of the three is the answer RANGE, and an answer changes nothing. -/
theorem outOfRangeOnlyAnswers : Obligations.OutOfRangeOnlyAnswers := by
  intro i s hi
  have hrange : exec i s = .next (respond .range 0 s) := by
    rcases hi with rfl | ⟨d, rfl⟩ | ⟨a, ha, rfl⟩
    · rw [exec, execRdpay_eq, if_pos rfl]
    · rw [exec, execWrpay_eq, if_pos rfl]
    · exact exec_rdreg_of_unassigned ha s
  exact ⟨_, hrange, rfl, sameBlock_respond ..⟩

end Sys2Proof.Machine
end

section
/-! PROOFS. The statements on the encoding (spec/30_encoding.md): the decoder is the inverse of the encoder, and it is
what mask-and-match over the opcode map finds. -/

namespace Sys2Proof.Machine

/-! ## The decoder inverts the encoder (R110 to R116) -/

/-- Settles O1: the fields of the word are those encoded, and the decoder reads them back. -/
theorem encodeThenDecode : Obligations.EncodeThenDecode := fun _ _ => decode_encode_of_legalOn

/-- R113: fields are accepted for an operation only where they are those it is encoded with. -/
theorem encodeFields_of_whenUnusedZero {f : Fields} {unusedZero : Bool} {i j : Instr}
    (h : whenUnusedZero f unusedZero i = .ok j) (hfields : unusedZero = true → encodeFields i = f) :
    encodeFields j = f := by
  unfold whenUnusedZero at h
  split at h
  next hzero =>
    cases h
    exact hfields hzero
  next => cases h

/-- R110: S has one bit. -/
theorem sBit_eq_one : ∀ {b : BitVec 1}, ¬ (b == 0) = true → b = 1 := by decide

/-- R113, R116: the decoder accepts no fields but those the operation is encoded with. -/
theorem encodeFields_of_decodeFields {f : Fields} {i : Instr} (h : decodeFields f = .ok i) : encodeFields i = f := by
  obtain ⟨op, s, rsv, a, d⟩ := f
  unfold decodeFields at h
  dsimp only at h
  split at h
  case h_15 => cases h
  case h_7 | h_8 =>
    split at h
    next hs =>
      rw [beq_iff_eq.mp hs] at h ⊢
      exact encodeFields_of_whenUnusedZero h (by simp +contextual [encodeFields])
    next hs =>
      rw [sBit_eq_one hs] at h ⊢
      exact encodeFields_of_whenUnusedZero h (by simp +contextual [encodeFields])
  all_goals exact encodeFields_of_whenUnusedZero h (by simp +contextual [encodeFields])

/-- R115: a word decodes on a port to the operation its fields spell, where that is legal there. -/
theorem decode_eq_ok {p : Port} {w : Word} {i : Instr} :
    decode p w = .ok i ↔ decodeFields (fieldsOf w) = .ok i ∧ i.legalOn p = true := by
  unfold decode
  cases decodeFields (fieldsOf w) with
  | error e => simp
  | ok j =>
    dsimp only
    split
    next hlegal =>
      simp only [Except.ok.injEq, iff_self_and]
      rintro rfl
      exact hlegal
    next hlegal =>
      simp only [reduceCtorEq, Except.ok.injEq, false_iff, not_and]
      rintro rfl
      exact hlegal

/-- Settles O2: the word has the fields its operation is encoded with. -/
theorem decodeThenEncode : Obligations.DecodeThenEncode := by
  intro p w i h
  obtain ⟨hfields, hlegal⟩ := decode_eq_ok.mp h
  refine ⟨?_, hlegal⟩
  rw [encode, encodeFields_of_decodeFields hfields, wordOf_fieldsOf]

/-! ## The opcode map (R114) -/

/-- R114: a word that matches a row bears the row's bits 31:27. -/
theorem opcodeBits_of_matches {r : OpcodeRow} {w : Word} (hmask : r.mask.extractLsb' 27 5 = 0x1F)
    (h : r.matches w = true) : w.extractLsb' 27 5 = r.pattern.extractLsb' 27 5 := by
  have hmatch : w &&& r.mask = r.pattern := beq_iff_eq.mp h
  rw [← hmatch, BitVec.extractLsb'_and, hmask]
  exact BitVec.and_allOnes.symm

theorem mask_opcodeBits : ∀ r ∈ opcodeTable, r.mask.extractLsb' 27 5 = 0x1F := by decide

/-- R114: no two rows bear the same bits 31:27. -/
theorem opcodeBits_nodup : (opcodeTable.map fun r => r.pattern.extractLsb' 27 5).Nodup := by decide

/-- R114: two rows that match the same word are the same row. -/
theorem opcodeRow_unique {w : Word} {r r' : OpcodeRow} (hr : r ∈ opcodeTable) (hr' : r' ∈ opcodeTable)
    (h : r.matches w = true) (h' : r'.matches w = true) : r = r' := by
  refine List.inj_on_of_nodup_map opcodeBits_nodup hr hr' ?_
  rw [← opcodeBits_of_matches (mask_opcodeBits r hr) h, ← opcodeBits_of_matches (mask_opcodeBits r' hr') h']

/-- Settles O4: the rows differ in bits 31:27, which every mask covers. -/
theorem opcodeRowsDisjoint : Obligations.OpcodeRowsDisjoint :=
  ⟨fun _ _ _ => opcodeRow_unique, mask_opcodeBits⟩

/-! ## Mask and match finds what the decoder decodes (R115) -/

/-- The operation of a mnemonic, its operands taken from the A and D fields as R114's rows place them. -/
def rowInstr (m : Mnemonic) (a d : Byte) : Instr :=
  match m with
  | .nop => .nop
  | .push => .push d
  | .detach => .detach
  | .pop => .pop
  | .rearm => .rearm
  | .setlen => .setlen d
  | .parse => .parse d
  | .parsef => .parsef
  | .pack => .pack d
  | .packf => .packf
  | .wrpay => .wrpay a d
  | .rdpay => .rdpay a
  | .build => .build d
  | .buildack => .buildack
  | .txstep => .txstep
  | .rdreg => .rdreg a

theorem op_and_mask (x : BitVec 4) : x &&& 0xF#4 = x := BitVec.and_allOnes
theorem s_and_mask (x : BitVec 1) : x &&& 0x1#1 = x := BitVec.and_allOnes
theorem rsv_and_mask (x : BitVec 11) : x &&& 0x7FF#11 = x := BitVec.and_allOnes
theorem byte_and_mask (x : Byte) : x &&& 0xFF#8 = x := BitVec.and_allOnes

/-- R114: a row compares each field of a word under its mask with its pattern. -/
theorem matches_wordOf {r : OpcodeRow} {f : Fields} :
    r.matches (wordOf f) = true ↔
      (⟨f.op &&& (fieldsOf r.mask).op, f.s &&& (fieldsOf r.mask).s, f.rsv &&& (fieldsOf r.mask).rsv,
        f.a &&& (fieldsOf r.mask).a, f.d &&& (fieldsOf r.mask).d⟩ : Fields) = fieldsOf r.pattern := by
  rw [OpcodeRow.matches, beq_iff_eq, ← wordOf_fieldsOf r.mask, ← wordOf_fieldsOf r.pattern, wordOf_and_wordOf,
    wordOf_inj]
  simp only [wordOf_fieldsOf]

/-- R114: a word that matches a row is the word of the row's operation with the operands in its A and D fields. -/
theorem encode_rowInstr_of_matches {r : OpcodeRow} (hr : r ∈ opcodeTable) {f : Fields}
    (h : r.matches (wordOf f) = true) : encode (rowInstr r.mnemonic f.a f.d) = wordOf f := by
  rw [encode, wordOf_inj]
  rw [matches_wordOf] at h
  obtain ⟨op, s, rsv, a, d⟩ := f
  simp only [opcodeTable, List.mem_cons, List.not_mem_nil, or_false] at hr
  rcases hr with rfl | rfl | rfl | rfl | rfl | rfl | rfl | rfl | rfl | rfl | rfl | rfl | rfl | rfl | rfl | rfl
  all_goals
    simp_all [fieldsOf, op_and_mask, s_and_mask, rsv_and_mask, byte_and_mask, rowInstr, encodeFields]

/-- R114: the row that bears an operation's mnemonic, matches its word and names its ports. -/
theorem encodingRow (i : Instr) : Laws.EncodingRow.Statement i := by
  cases i with
  | nop => exact Laws.EncodingRow.nop
  | push d => exact Laws.EncodingRow.push d
  | detach => exact Laws.EncodingRow.detach
  | pop => exact Laws.EncodingRow.pop
  | rearm => exact Laws.EncodingRow.rearm
  | setlen n => exact Laws.EncodingRow.setlen n
  | parse d => exact Laws.EncodingRow.parse d
  | parsef => exact Laws.EncodingRow.parsef
  | pack d => exact Laws.EncodingRow.pack d
  | packf => exact Laws.EncodingRow.packf
  | wrpay a d => exact Laws.EncodingRow.wrpay a d
  | rdpay a => exact Laws.EncodingRow.rdpay a
  | build n => exact Laws.EncodingRow.build n
  | buildack => exact Laws.EncodingRow.buildack
  | txstep => exact Laws.EncodingRow.txstep
  | rdreg a => exact Laws.EncodingRow.rdreg a

/-- R115: a legal word's row is the one the table search finds, since no other matches. -/
theorem decodeByTable_encode {p : Port} {i : Instr} (hlegal : i.legalOn p = true) :
    decodeByTable p (encode i) = some i.mnemonic := by
  obtain ⟨r, hr, hname, hmatch, hports⟩ := encodingRow i
  have hsome : (opcodeTable.find? fun r => r.matches (encode i) && r.ports.contains p).isSome := by
    rw [List.find?_isSome]
    exact ⟨r, hr, by rw [hmatch, hports, hlegal]; rfl⟩
  obtain ⟨r', hfind⟩ := Option.isSome_iff_exists.mp hsome
  have hmatch' := List.find?_some hfind
  rw [Bool.and_eq_true] at hmatch'
  have hsame : r' = r := opcodeRow_unique (List.mem_of_find?_eq_some hfind) hr hmatch'.1 hmatch
  rw [decodeByTable, hfind, hsame, Option.map_some, hname]

/-- R115: a word that matches a row on one of the row's ports decodes there. -/
theorem decode_isOk_of_matches {p : Port} {w : Word} {r : OpcodeRow} (hr : r ∈ opcodeTable)
    (hmatch : r.matches w = true) (hport : r.ports.contains p = true) : ∃ i, decode p w = .ok i := by
  have hword : encode (rowInstr r.mnemonic (fieldsOf w).a (fieldsOf w).d) = w := by
    rw [encode_rowInstr_of_matches hr (by rwa [wordOf_fieldsOf]), wordOf_fieldsOf]
  obtain ⟨r', hr', -, hmatch', hports⟩ := encodingRow (rowInstr r.mnemonic (fieldsOf w).a (fieldsOf w).d)
  rw [hword] at hmatch'
  have hlegal := (hports p).symm
  rw [opcodeRow_unique hr' hr hmatch' hmatch, hport] at hlegal
  exact ⟨_, hword ▸ decode_encode_of_legalOn hlegal⟩

/-- Settles O3: a legal word is the word of its operation, whose row the search finds; an illegal one matches no row on
its port. -/
theorem decodeFollowsOpcodeMap : Obligations.DecodeFollowsOpcodeMap := by
  intro p w
  cases h : decode p w with
  | ok i =>
    obtain ⟨rfl, hlegal⟩ := decodeThenEncode p w i h
    exact (decodeByTable_encode hlegal).symm
  | error e =>
    symm
    rw [decodeByTable, Option.map_eq_none_iff, List.find?_eq_none]
    intro r hr hmatch
    obtain ⟨hmatch, hport⟩ := (Bool.and_eq_true ..).mp hmatch
    obtain ⟨i, hi⟩ := decode_isOk_of_matches hr hmatch hport
    rw [hi] at h
    cases h

/-! ## Worked encodings (R132) -/

/-- One worked encoding, put before the others. -/
theorem workedEncoding_and {p : Port} {i : Instr} {w : Word} {rest : Prop} (h : encode i = w)
    (hlegal : i.legalOn p = true) (hrest : rest) : encode i = w ∧ decode p w = .ok i ∧ rest :=
  ⟨h, h ▸ decode_encode_of_legalOn hlegal, hrest⟩

/-- Settles O5: each worked word is the word of its operation by evaluation, and so decodes to it; the illegal words are
evaluated. -/
theorem workedEncodings : Obligations.WorkedEncodings := by
  iterate 14 refine workedEncoding_and (by decide) rfl ?_
  have hnop : decode .rx 0x00000000 = .ok .nop := decode_encode_of_legalOn (i := .nop) rfl
  refine ⟨hnop, ?_⟩
  simp only [List.forall_mem_cons]
  exact ⟨⟨_, rfl⟩, ⟨_, rfl⟩, ⟨_, rfl⟩, ⟨_, rfl⟩, nofun⟩

end Sys2Proof.Machine
end

section
/-! PROOFS. The responses (spec/30_encoding.md R120, R241) and the operations of one frame or staged run (R131): one
answer for each word, the staged bytes of LDPAY, the ack frame. -/

namespace Sys2Proof.Machine

/-! ## The response word (R120) -/

theorem responseWord_code (rc : ResultCode) (data : Data) : (responseWord rc data).extractLsb' 28 4 = rc.code := by
  rw [responseWord, BitVec.extractLsb'_append_eq_of_le (by decide)]
  exact BitVec.extractLsb'_append_eq_left

theorem responseWord_zeros (rc : ResultCode) (data : Data) : (responseWord rc data).extractLsb' 16 12 = 0 := by
  rw [responseWord, BitVec.extractLsb'_append_eq_of_le (by decide),
    BitVec.extractLsb'_append_eq_of_add_le (by decide)]
  rfl

/-- R121: the codes above 0xA are reserved. -/
theorem ResultCode.code_le (rc : ResultCode) : rc.code.toNat ≤ 0xA := by cases rc <;> decide

/-! ## One answer for each operation and word (R120, R241) -/

/-- A meaning ends in one answer, given on the port of `s` where it left the port and the answers before alone. -/
theorem answered_respond {s u : State} (rc : ResultCode) (data : Data) (hresponses : u.responses = s.responses)
    (hport : u.port = s.port) : ∃ rc' data', Answered rc' data' s (respond rc data u) :=
  ⟨rc, data, by rw [Answered, respond_responses, hresponses, hport]⟩

/-- R120: every operation returns exactly one response word. -/
theorem exec_answers_once {i : Instr} {s t : State} (h : exec i s = .next t) : ∃ rc data, Answered rc data s t := by
  cases exec_cases h with
  | overflowed => exact answered_respond _ _ (enterBurst_responses s) (enterBurst_port s)
  | parsed _ _ _ _ _ hd | parsedHead _ _ _ _ _ _ _ hd =>
    exact answered_respond _ _ (dstep_keeps (P := fun u => u.responses = s.responses) hd rfl)
      (dstep_keeps (P := fun u => u.port = s.port) hd rfl)
  | recognized _ _ _ _ _ ha | recognizedHead _ _ _ _ _ _ _ ha =>
    exact answered_respond _ _ (astep_keeps (P := fun u => u.responses = s.responses) ha rfl)
      (astep_keeps (P := fun u => u.port = s.port) ha rfl)
  | frameBuilt _ _ _ _ hu => obtain ⟨m, rfl, -⟩ := hu; exact answered_respond _ _ rfl rfl
  | ackBuilt _ _ _ hu => obtain ⟨m, rfl, -⟩ := hu; exact answered_respond _ _ rfl rfl
  | _ => exact answered_respond _ _ rfl rfl

/-- Settles O10: a word is one operation or the answer ILLEGAL, and either ends in one response word. -/
theorem oneResponsePerWord : Obligations.OneResponsePerWord := by
  intro p w s t h
  have hanswer : ∃ rc data, Answered rc data { s with port := p } t := by
    rcases issueWord_eq_next h with ⟨i, -, hi⟩ | ⟨e, -, rfl⟩
    · exact exec_answers_once hi
    · exact answered_respond _ _ rfl rfl
  obtain ⟨rc, data, hanswer⟩ := hanswer
  exact ⟨rc, responseWord rc data, hanswer, responseWord_code rc data, responseWord_zeros rc data, rc.code_le⟩

/-- Settles O9: the answer ILLEGAL, and an answer changes nothing. -/
theorem illegalWordOnlyAnswers : Obligations.IllegalWordOnlyAnswers := by
  intro p w e s h
  have hissue : issueWord p w s = .next (respond .illegal 0 { s with port := p }) := by
    rw [issueWord, h]
    rfl
  exact ⟨_, hissue, rfl, sameBlock_respond ..⟩

/-! ## Operations in order -/

theorem execAll_cons {i : Instr} {is : List Instr} {s u : State} (h : exec i s = .next u) :
    execAll (i :: is) s = execAll is u := by
  simp only [execAll, h]

theorem execAll_append {is js : List Instr} {s u : State} (h : execAll is s = .next u) :
    execAll (is ++ js) s = execAll js u := by
  induction is generalizing s with
  | nil => cases h; rfl
  | cons i is ih =>
    obtain ⟨v, hv, hrest⟩ := execAll_cons_eq_next h
    rw [List.cons_append, execAll_cons hv, ih hrest]

/-! ## LDPAY (R131) -/

/-- R131, R211: the WRPAYs of LDPAY do one MemWrite for each byte, and answer OK for each. -/
theorem execAll_ldpayExpansion {a : Byte} {bs : List Byte} {s u : State} (rs : List (Port × Word))
    (h : memWriteRun .txpay a.toNat bs s = .ok u) :
    execAll (ldpayExpansion a bs) { s with responses := rs } =
      .next { u with responses := rs ++ List.replicate bs.length (s.port, 0x00000000#32) } := by
  induction bs generalizing a s rs with
  | nil => cases h; simp [ldpayExpansion, execAll]
  | cons b bs ih =>
    obtain ⟨v, hv, hrest⟩ := except_bind_eq_ok.mp h
    obtain ⟨ha, rfl⟩ := memWrite_eq_ok.mp hv
    have hin : a.toNat < 255 := ha
    have hindex : (a + 1).toNat = a.toNat + 1 := by bv_omega
    have hne : a ≠ 255 := by bv_omega
    have hexec : exec (.wrpay a b) { s with responses := rs } =
        .next { s.withSpace .txpay (s.txpay.write a.toNat b) with
          responses := rs ++ [(s.port, 0x00000000#32)] } := by
      rw [exec, execWrpay_eq, if_neg hne]
      rfl
    rw [ldpayExpansion, execAll_cons hexec, ih _ (hindex ▸ hrest), List.append_assoc]
    rfl

theorem ldpayFits_iff {a : Byte} {bs : List Byte} :
    ldpayFits a bs = true ↔ bs ≠ [] ∧ a.toNat + bs.length ≤ 255 := by
  cases bs with
  | nil => simp [ldpayFits]
  | cons b bs => simp [ldpayFits]; omega

/-- Settles O7: LDPAY is a run of writes to TXPAY and its answers; the run gives the bytes, and nothing else is written. -/
theorem ldpayStagesItsBytes : Obligations.LdpayStagesItsBytes := by
  intro a bs s hfits
  obtain ⟨-, hfits⟩ := ldpayFits_iff.mp hfits
  obtain ⟨m, hrun, hread, -⟩ := memWriteRun_ok (sp := .txpay) bs a.toNat s hfits
  refine ⟨_, execAll_ldpayExpansion s.responses hrun, fun k hk => ?staged, fun j hj => ?others, rfl,
    ⟨rfl, rfl, rfl, fun _ => rfl⟩, ⟨rfl, rfl, rfl⟩, ⟨rfl, rfl, rfl, rfl, rfl, fun _ => rfl⟩, rfl,
    ⟨rfl, rfl, rfl, rfl, rfl, rfl⟩, rfl, rfl, rfl, rfl, fun _ => rfl⟩
  case staged =>
    refine byteAt_of_read (sp := .txpay) ((hread _).trans ?_)
    rw [if_pos (by omega), Nat.add_sub_cancel_left, List.getElem?_eq_getElem hk]
  case others =>
    exact byteAt_congr_read (sp := .txpay) ((hread j).trans (if_neg (by omega))) rfl

/-! ## The ack frame (R101, R178) -/

theorem execAll_pack_cons {b : Byte} {is : List Instr} {s u : State} {rc : ResultCode} (h : astep b s = (rc, u)) :
    execAll (.pack b :: is) s = execAll is (respond rc (byteData b) u) :=
  execAll_cons (by rw [exec, execPack_eq, h])

/-- R178: the start marker opens an ack frame. -/
theorem astep_opens {s : State} (hs : s.ast = .aStart) : astep 0x24 s = (.ok, { s with ast := .aGotSm }) := by
  simp [astep, hs, startMarker]

/-- R178: a start marker where AK1 is expected breaks the ack frame, and opens the next only where it is examined
again. -/
theorem astep_startMarker_again {s : State} (hs : s.ast = .aGotSm) :
    astep 0x24 s = (.ok, { s with ast := if s.params.resyncReexamine then .aGotSm else .aStart }) := by
  cases hr : s.params.resyncReexamine <;> simp [astep, hs, ackResync, startMarker, ackByte1, hr]

/-- R178: AK1 continues an ack frame that is open. -/
theorem astep_continues {s : State} (hs : s.ast = .aGotSm) : astep 0x2A s = (.ok, { s with ast := .aGotAk1 }) := by
  simp [astep, hs, ackByte1]

/-- R178: AK2 after AK1 completes the ack frame. -/
theorem astep_completes {s : State} (hs : s.ast = .aGotAk1) : astep 0x25 s = (.ack, { s with ast := .aStart }) := by
  simp [astep, hs, ackByte2]

/-- R178: where no ack frame is open a byte other than the start marker is passed over. -/
theorem astep_passes {b : Byte} {s : State} (hs : s.ast = .aStart) (hb : b ≠ startMarker) : astep b s = (.ok, s) := by
  simp [astep, hs, hb]

theorem execAll_pack_ackBytes {s : State} (hs : s.ast = .aGotSm) :
    execAll [.pack 0x2A, .pack 0x25] s = .next { s with
      ast := .aStart
      responses := s.responses ++ [(s.port, 0x0000002A#32), (s.port, 0x20000025#32)] } := by
  rw [execAll_pack_cons (astep_continues hs), execAll_pack_cons (astep_completes rfl), execAll]
  simp [respond, responseWord, ResultCode.code, byteData]

theorem execAll_pack_ackBytes_of_aStart {s : State} (hs : s.ast = .aStart) :
    execAll [.pack 0x2A, .pack 0x25] s = .next { s with
      responses := s.responses ++ [(s.port, 0x0000002A#32), (s.port, 0x00000025#32)] } := by
  have hs' : (respond .ok (byteData 0x2A) s).ast = .aStart := hs
  rw [execAll_pack_cons (astep_passes hs (by decide)), execAll_pack_cons (astep_passes hs' (by decide)), execAll]
  simp [respond, responseWord, ResultCode.code, byteData]

/-- Settles O34: an opened ack frame is completed; after two start markers it is open only where the second was examined
again. -/
theorem ackFrameRecognized : Obligations.AckFrameRecognized := by
  intro s hs
  have hopened : ∀ is, execAll (.pack 0x24 :: is) s = execAll is (respond .ok 0x24 { s with ast := .aGotSm }) :=
    fun _ => execAll_pack_cons (astep_opens hs)
  refine ⟨⟨_, (hopened _).trans (execAll_pack_ackBytes rfl), rfl, List.append_assoc ..⟩, ?twice⟩
  case twice =>
    rw [hopened, execAll_pack_cons (astep_startMarker_again rfl)]
    cases hr : s.params.resyncReexamine with
    | false =>
      refine ⟨_, execAll_pack_ackBytes_of_aStart (by simp [hr]), by simp [hr], ?_⟩
      simp [responseWord, ResultCode.code, byteData]
    | true =>
      refine ⟨_, execAll_pack_ackBytes (by simp [hr]), rfl, ?_⟩
      simp [responseWord, ResultCode.code, byteData]

end Sys2Proof.Machine
end

section
/-! PROOFS. Whole frames: a frame given to PARSE byte by byte is delivered (spec/41_deframer.md R170), and a wire image is
sent byte by byte (spec/42_framer_tx.md R215). -/

namespace Sys2Proof.Machine

/-! ## A frame given to PARSE (R100, R170) -/

/-- R176: PARSE answers one deframer step. -/
theorem execAll_parse_cons {b : Byte} {is : List Instr} {s u : State} {rc : ResultCode} (h : dstep b s = .ok (rc, u)) :
    execAll (.parse b :: is) s = execAll is (respond rc (deframerData rc u.flen b) u) :=
  execAll_cons (execParse_eq_next.mpr ⟨rc, u, h, rfl⟩)

/-- `s` within a frame's payload with `n` bytes collected and the answers `rs` given (R170): COLLECTING, or at EM1 once
FLEN bytes are collected. -/
def withCollected (s : State) (n : Byte) (rs : List (Port × Word)) : State :=
  { s with pcount := n, pst := if n = s.flen then .awaitEnd1 else .collecting, responses := rs }

/-- The answers OK to a run of bytes, on the port `s` serves (R122). -/
def okAnswers (s : State) (bs : List Byte) : List (Port × Word) :=
  bs.map fun b => (s.port, responseWord .ok (b.setWidth 16))

/-- R173: short of FLEN bytes a byte is collected, whatever it is. -/
theorem dstep_withCollected {b n : Byte} {s : State} {rs : List (Port × Word)} (hn : n.toNat < s.flen.toNat) :
    dstep b (withCollected s n rs) =
      .ok (.ok, withCollected (s.withSpace .rxpay (s.rxpay.write n.toNat b)) (n + 1) rs) := by
  have hflen := s.flen.isLt
  have hne : n ≠ s.flen := by bv_omega
  refine dstep_eq_ok.mpr (.inr (.inl ⟨if_neg hne, rfl, collectByte_eq_ok.mpr ⟨?_, ?_⟩⟩))
  · show n.toNat < 255
    omega
  · simp only [withCollected, if_neg hne]
    rfl

/-- R170, R173: the rest of a payload given to PARSE is one MemWrite for each byte, with OK for each. -/
theorem execAll_parse_payload {bs : List Byte} {n : Byte} {s u : State} {rs : List (Port × Word)}
    (hlen : n.toNat + bs.length = s.flen.toNat) (h : memWriteRun .rxpay n.toNat bs s = .ok u) :
    execAll (bs.map .parse) (withCollected s n rs) = .next (withCollected u s.flen (rs ++ okAnswers s bs)) := by
  induction bs generalizing n s rs with
  | nil =>
    have hn : n = s.flen := BitVec.eq_of_toNat_eq hlen
    cases h
    simp [execAll, okAnswers, hn]
  | cons b bs ih =>
    obtain ⟨v, hv, hrest⟩ := except_bind_eq_ok.mp h
    obtain ⟨-, rfl⟩ := memWrite_eq_ok.mp hv
    rw [List.length_cons] at hlen
    have hflen := s.flen.isLt
    have hindex : (n + 1).toNat = n.toNat + 1 := by bv_omega
    rw [List.map_cons, execAll_parse_cons (dstep_withCollected (by omega))]
    have hrun := ih (s := s.withSpace .rxpay (s.rxpay.write n.toNat b)) (n := n + 1) (rs := rs ++ okAnswers s [b])
      (by rw [withSpace_flen]; omega) (hindex ▸ hrest)
    rw [List.append_assoc] at hrun
    exact hrun

/-- R170: EM1 and EM2 after the payload complete the frame. -/
theorem execAll_parse_endMarkers {s : State} (hs : s.pst = .awaitEnd1) :
    execAll [.parse endMarker1, .parse endMarker2] s = .next { s with
      pst := .awaitStart
      fv := true
      responses := s.responses ++ okAnswers s [endMarker1] ++
        [(s.port, responseWord .frame (s.flen ++ endMarker2))] } := by
  have hend1 : dstep endMarker1 s = .ok (.ok, { s with pst := .awaitEnd2 }) :=
    dstep_eq_ok.mpr (.inr (.inr (.inl ⟨hs, rfl, (if_pos rfl).symm⟩)))
  rw [execAll_parse_cons hend1, execAll_parse_cons (dstep_eq_ok.mpr (.inr (.inr (.inr (.inl ⟨rfl, rfl, rfl, rfl⟩)))))]
  rfl

/-- R172: the start marker opens a frame of LEN bytes with none collected. -/
theorem execAll_parse_startMarker {is : List Instr} {s : State} (hs : s.pst = .awaitStart) :
    execAll (.parse startMarker :: is) s =
      execAll is (withCollected (startFrame s) 0 (s.responses ++ okAnswers s [startMarker])) := by
  have hstart : dstep startMarker s = .ok (.ok, startFrame s) := dstep_eq_ok.mpr (.inl ⟨hs, rfl, (if_pos rfl).symm⟩)
  have hpst : (startFrame s).pst = if 0 = (startFrame s).flen then .awaitEnd1 else .collecting := by
    simp only [startFrame_pst, startFrame_flen, eq_comm]
  rw [execAll_parse_cons hstart, withCollected, ← hpst]
  rfl

/-- Settles O27: the start marker opens the frame, the payload is collected, the end markers complete it. -/
theorem wholeFrameDelivered : Obligations.WholeFrameDelivered := by
  intro payload s hs hlen
  have hmax := s.len.isLt
  obtain ⟨m, hrun, hread, -⟩ := memWriteRun_ok (sp := .rxpay) payload 0 (startFrame s) (by simp [spaceSize]; omega)
  have hpayload := execAll_parse_payload (n := 0) (rs := s.responses ++ okAnswers s [startMarker])
    ((Nat.zero_add _).trans hlen.symm) hrun
  have hframe : execAll ((frameBytes payload).map .parse) s =
      execAll [.parse endMarker1, .parse endMarker2] (withCollected ((startFrame s).withSpace .rxpay m) s.len
        (s.responses ++ okAnswers s [startMarker] ++ okAnswers s payload)) := by
    rw [frameBytes, List.cons_append, List.map_cons, List.map_append, execAll_parse_startMarker hs]
    exact execAll_append hpayload
  refine ⟨_, hframe.trans (execAll_parse_endMarkers (if_pos rfl)), ?answers, rfl, rfl, rfl, fun k hk => ?delivered⟩
  case answers =>
    have hok : s.responses ++ okAnswers s [startMarker] ++ okAnswers s payload ++ okAnswers s [endMarker1] =
        s.responses ++ okAnswers s (startMarker :: payload ++ [endMarker1]) := by
      simp [okAnswers]
    exact congrArg (· ++ [(s.port, responseWord .frame (s.len ++ endMarker2))]) hok
  case delivered =>
    refine byteAt_of_read (sp := .rxpay) ((hread k).trans ?_)
    rw [if_pos (by omega), Nat.sub_zero, List.getElem?_eq_getElem hk]

/-! ## The pump (R214, R215) -/

/-- The bytes of the wire image not yet sent: none while no transmission is active (R50 to R52). -/
def bytesToSend (s : State) : List Byte := if s.txAct then (wireImage s).drop s.txCur.toNat else []

theorem wireImage_length (s : State) : (wireImage s).length = s.txLen.toNat := by simp [wireImage]

theorem bytesToSend_of_idle {s : State} (h : s.txAct = false) : bytesToSend s = [] := by simp [bytesToSend, h]

theorem bytesToSend_of_active {s : State} (h : s.txAct = true) : bytesToSend s = (wireImage s).drop s.txCur.toNat :=
  if_pos h

theorem bytesToSend_respond (rc : ResultCode) (data : Data) (s : State) :
    bytesToSend (respond rc data s) = bytesToSend s := rfl

theorem bytesToSend_emit (b : Byte) (s : State) : bytesToSend (emit b s) = bytesToSend s := rfl

/-- R51: an active transmitter has the byte at TXCUR to send, then the rest of the image. -/
theorem TransmitInv.bytesToSend_eq_cons {s : State} (hs : TransmitInv s) (hact : s.txAct = true) :
    bytesToSend s = s.byteAt .txw s.txCur.toNat :: (wireImage s).drop (s.txCur.toNat + 1) := by
  have hlt : s.txCur.toNat < (wireImage s).length := wireImage_length s ▸ (hs.txCur_lt hact).1
  rw [bytesToSend_of_active hact, List.drop_eq_getElem_cons hlt]
  simp [wireImage]

/-- R52: the transmitter is idle exactly when nothing is left to send. -/
theorem TransmitInv.idle_iff {s : State} (hs : TransmitInv s) : s.txAct = false ↔ bytesToSend s = [] := by
  refine ⟨bytesToSend_of_idle, fun hnone => ?_⟩
  by_contra hact
  rw [hs.bytesToSend_eq_cons (Bool.not_eq_false _ ▸ hact)] at hnone
  cases hnone

/-- R212, R213: after a loaded image all of it is to be sent. -/
theorem ImageLoaded.bytesToSend_eq {image : List Byte} {s t : State} (h : ImageLoaded image s t)
    (himage : IsWireImage image) : bytesToSend t = image := by
  have hwire := h.wireImage_eq himage.length_bounds.2
  obtain ⟨m, rfl, -⟩ := h
  rw [bytesToSend_of_active rfl, hwire]
  rfl

/-- `t` has sent `n` more bytes of what `s` had to send, in order, or all of it where `n` exceeds it. -/
structure SentBytes (n : Nat) (s t : State) : Prop where
  emitted : t.emitted = s.emitted ++ (bytesToSend s).take n
  left : bytesToSend t = (bytesToSend s).drop n

theorem sentBytes_zero {s t : State} (hemitted : t.emitted = s.emitted) (hleft : bytesToSend t = bytesToSend s) :
    SentBytes 0 s t :=
  ⟨by rw [hemitted, List.take_zero, List.append_nil], by rw [hleft, List.drop_zero]⟩

theorem sentBytes_of_none {n : Nat} {s t : State} (hnone : bytesToSend s = []) (hemitted : t.emitted = s.emitted)
    (hleft : bytesToSend t = bytesToSend s) : SentBytes n s t :=
  ⟨by rw [hemitted, hnone, List.take_nil, List.append_nil], by rw [hleft, hnone, List.drop_nil]⟩

theorem SentBytes.trans {n k : Nat} {s t u : State} (h : SentBytes n s t) (h' : SentBytes k t u) :
    SentBytes (n + k) s u where
  emitted := by rw [h'.emitted, h.emitted, h.left, List.append_assoc, List.take_add]
  left := by rw [h'.left, h.left, List.drop_drop]

/-- R214: the byte sent is the first of those to send, and the cursor's move leaves the others. -/
theorem TransmitInv.bytesToSend_advancePump {s : State} (hs : TransmitInv s) (hact : s.txAct = true) :
    bytesToSend (advancePump s).2 = (bytesToSend s).drop 1 := by
  have hcur := (hs.txCur_lt hact).2
  rw [hs.bytesToSend_eq_cons hact, List.drop_one, List.tail_cons, advancePump_eq]
  split
  next hlast =>
    have hend : (wireImage s).length ≤ s.txCur.toNat + 1 := by
      rw [wireImage_length, ← hlast]
      bv_omega
    rw [List.drop_eq_nil_of_le hend]
    exact bytesToSend_of_idle rfl
  next =>
    have hnext : (s.txCur + 1).toNat = s.txCur.toNat + 1 := by bv_omega
    rw [← hnext]
    exact bytesToSend_of_active hact

/-- R214: a TXSTEP sends one byte where the transport is ready and one is left, and none otherwise. -/
theorem exec_txstep_sentBytes {s : State} (hs : TransmitInv s) :
    ∃ t, exec .txstep s = .next t ∧ SentBytes s.txWritable.toNat s t := by
  cases hact : s.txAct with
  | false =>
    exact ⟨_, execTxstep_eq_next.mpr (.inl ⟨hact, rfl⟩), sentBytes_of_none (bytesToSend_of_idle hact) rfl rfl⟩
  | true =>
    cases hready : s.txWritable with
    | false => exact ⟨_, execTxstep_eq_next.mpr (.inr (.inl ⟨hact, hready, rfl⟩)), sentBytes_zero rfl rfl⟩
    | true =>
      refine ⟨_, exec_txstep_sends hact hready (hs.txCur_lt hact).2, ?sent, ?left⟩
      case sent =>
        rw [hs.bytesToSend_eq_cons hact, advancePump_frame]
        rfl
      case left =>
        rw [bytesToSend_respond, bytesToSend_emit]
        exact hs.bytesToSend_advancePump hact

theorem performAll_cons {e : Event} {es : List Event} {s u : State} (h : performEvent e s = .next u) :
    performAll (e :: es) s = performAll es u := by
  simp only [performAll, h]

/-- R215: any TXSTEPs send one byte for each draw that finds the transport ready, as long as one is left. -/
theorem performAll_txsteps {draws : List Bool} {s : State} (hs : TransmitInv s) :
    ∃ t, performAll (draws.map fun w => .cmdWord (encode .txstep) w) s = .next t ∧
      SentBytes (draws.count true) s t ∧ TransmitInv t := by
  induction draws generalizing s with
  | nil => exact ⟨s, rfl, sentBytes_zero rfl rfl, hs⟩
  | cons w draws ih =>
    have hs' : TransmitInv { s with txWritable := w, port := .cmd } := hs
    obtain ⟨u, hu, hsent⟩ := exec_txstep_sentBytes hs'
    obtain ⟨t, ht, hrest, hinv⟩ := ih (exec_keeps_transmitInv hs' hu)
    have hcount : (w :: draws).count true = w.toNat + draws.count true := by
      cases w <;> simp [Nat.add_comm]
    refine ⟨t, ?_, hcount ▸ SentBytes.trans ⟨hsent.emitted, hsent.left⟩ hrest, hinv⟩
    rw [List.map_cons, performAll_cons ((performEvent_cmdWord_encode rfl w s).trans hu), ht]

/-- R215: after the event that loads a wire image the TXSTEPs send the image's first bytes, and the transmission is over
once all of them are sent. -/
theorem performAll_load_txsteps {e : Event} {image : List Byte} {s v u : State}
    (hload : performEvent e s = .next (respond .ok 0 u)) (hu : ImageLoaded image v u) (himage : IsWireImage image)
    (hv : v.emitted = s.emitted) (draws : List Bool) :
    ∃ t, performAll (e :: draws.map fun w => .cmdWord (encode .txstep) w) s = .next t ∧
      t.emitted = s.emitted ++ image.take (draws.count true) ∧
      (t.txAct = false ↔ image.length ≤ draws.count true) := by
  have hinv : TransmitInv (respond .ok 0 u) := hu.transmitInv himage
  have htoSend : bytesToSend (respond .ok 0 u) = image := hu.bytesToSend_eq himage
  have hemitted : u.emitted = s.emitted := by
    obtain ⟨m, rfl, -⟩ := hu
    exact hv
  obtain ⟨t, ht, ⟨hsent, hleft⟩, hinv'⟩ := performAll_txsteps (draws := draws) hinv
  rw [htoSend] at hsent hleft
  refine ⟨t, (performAll_cons hload).trans ht, ?_, ?_⟩
  · rw [hsent, respond_emitted, hemitted]
  · rw [hinv'.idle_iff, hleft, List.drop_eq_nil_iff]

/-- Settles O41: BUILD and BUILDACK load their image, and the TXSTEPs send it. -/
theorem pumpSendsWireImage : Obligations.PumpSendsWireImage := by
  intro s writable draws hidle
  refine ⟨fun n => ?frame, ?ack⟩
  case frame =>
    obtain ⟨t, h, ⟨hbusy, -⟩ | ⟨-, u, rfl, hu⟩⟩ := execBuild_answers n { s with txWritable := writable, port := .cmd }
    · cases hbusy.symm.trans hidle
    have hload := (performEvent_cmdWord_encode (i := .build n) rfl writable s).trans h
    have hpump := performAll_load_txsteps hload hu (isWireImage_stagedFrame n _) rfl draws
    rwa [frameBytes_length, List.length_map, List.length_range] at hpump
  case ack =>
    obtain ⟨t, h, ⟨hbusy, -⟩ | ⟨-, u, rfl, hu⟩⟩ := execBuildack_answers { s with txWritable := writable, port := .cmd }
    · cases hbusy.symm.trans hidle
    have hload := (performEvent_cmdWord_encode (i := .buildack) rfl writable s).trans h
    exact performAll_load_txsteps hload hu isWireImage_ackBytes rfl draws

end Sys2Proof.Machine
end

section
/-! PROOFS. The ingress FIFO and its front end (spec/40_ingress_fifo.md): the operations turned away, the head that
PARSEF and PACKF take, a full turn of the indices, RXFE's policy and bursts, the pending dispatch. -/

namespace Sys2Proof.Machine

/-! ## Operations on the head (R145, R177, R180) -/

theorem FifoInv.rdIdx_lt {s : State} (hs : FifoInv s) : s.rdIdx < s.params.pCap := hs.2.1

theorem FifoInv.wrIdx_lt {s : State} (hs : FifoInv s) : s.wrIdx < s.params.pCap := hs.2.2.1

/-- R44: COLLECTING's index is inside RXPAY. -/
theorem DeframerInv.pcount_lt {s : State} (hs : DeframerInv s) (hp : s.pst = .collecting) : s.pcount.toNat < 255 := by
  have hlt : s.pcount < s.flen := hs.1 hp
  bv_omega

/-- Settles O24: PARSEF is PARSE of the head, and PARSE answers where COLLECTING's index is inside RXPAY. -/
theorem parsefStepsOnFifoHead : Obligations.ParsefStepsOnFifoHead := by
  intro s hnotEmpty hrd hcount
  obtain ⟨rc, u, hstep⟩ := dstep_answers (s.byteAt .fifo s.rdIdx) (fifoAdvanced s) hcount
  have hparse : exec (.parse (s.byteAt .fifo s.rdIdx)) (fifoAdvanced s) = .next _ :=
    execParse_eq_next.mpr ⟨rc, u, hstep, rfl⟩
  exact ⟨_, (exec_parsef_eq hnotEmpty hrd).trans hparse, hparse⟩

/-- Settles O33: PACKF is PACK of the head, and PACK always answers. -/
theorem packfStepsOnFifoHead : Obligations.PackfStepsOnFifoHead := by
  intro s hnotEmpty hrd
  have hpack := execPack_eq (s.byteAt .fifo s.rdIdx) (fifoAdvanced s)
  exact ⟨_, (exec_packf_eq hnotEmpty hrd).trans hpack, hpack⟩

/-- R146: POP, PARSEF and PACKF on an empty FIFO are answered UNDERFLOW and nothing else. -/
theorem exec_removing_of_empty {i : Instr} {s : State} (hi : removesFifo i = true) (hempty : s.fill = 0) :
    exec i s = .next (respond .underflow 0 s) := by
  cases i with
  | pop => exact exec_pop_of_empty hempty
  | parsef => exact execParsef_eq_next.mpr (.inl ⟨hempty, rfl⟩)
  | packf => exact execPackf_eq_next.mpr (.inl ⟨hempty, rfl⟩)
  | _ => cases hi

/-- R145: POP, PARSEF and PACKF on a FIFO that holds bytes leave it as `fifoAdvanced` has it. -/
theorem exec_removing_sameFifo {i : Instr} {s t : State} (hi : removesFifo i = true) (hs : FifoInv s)
    (hnotEmpty : s.fill ≠ 0) (h : exec i s = .next t) : SameFifo (fifoAdvanced s) t := by
  have hrd := hs.rdIdx_lt
  cases i with
  | pop =>
    rcases execPop_eq_next.mp h with ⟨hempty, -⟩ | ⟨-, -, rfl⟩
    · exact absurd hempty hnotEmpty
    · exact (sameBlock_respond ..).fifo
  | parsef => exact exec_sameFifo ((exec_parsef_eq hnotEmpty hrd).symm.trans h) rfl
  | packf => exact exec_sameFifo ((exec_packf_eq hnotEmpty hrd).symm.trans h) rfl
  | _ => cases hi

/-- POP, PARSEF and PACKF answer wherever the registers meet R36 and R44. -/
theorem exec_removing_answers {i : Instr} {s : State} (hi : removesFifo i = true) (hs : FifoInv s)
    (hdef : DeframerInv s) : ∃ t, exec i s = .next t := by
  by_cases hempty : s.fill = 0
  · exact ⟨_, exec_removing_of_empty hi hempty⟩
  have hrd := hs.rdIdx_lt
  cases i with
  | pop => exact ⟨_, execPop_eq_next.mpr (.inr ⟨hempty, hrd, rfl⟩)⟩
  | parsef =>
    obtain ⟨t, ht, -⟩ := parsefStepsOnFifoHead s hempty hrd hdef.pcount_lt
    exact ⟨t, ht⟩
  | packf =>
    obtain ⟨t, ht, -⟩ := packfStepsOnFifoHead s hempty hrd
    exact ⟨t, ht⟩
  | _ => cases hi

/-! ## Rejection (R146) -/

/-- R141, R146: PUSH on a full FIFO is answered OVERFLOW and enters the burst. -/
theorem exec_push_of_full {s : State} (d : Byte) (hfull : s.fill = s.params.pCap) :
    exec (.push d) s = .next (respond .overflow 0 (enterBurst s)) :=
  execPush_eq_next.mpr (.inl ⟨hfull, rfl⟩)

/-- Settles O13: the overflow writes no more than INB, the underflow is an answer and nothing else. -/
theorem rejectionWithoutMutation : Obligations.RejectionWithoutMutation := by
  refine ⟨fun d s hfull => ?overflow, fun i s hi hempty => ?underflow⟩
  case overflow =>
    have h := exec_push_of_full d hfull
    have hfifo : SameFifo s (respond .overflow 0 (enterBurst s)) := by
      rw [enterBurst_eq]
      exact ⟨rfl, rfl, rfl, fun _ => rfl⟩
    exact ⟨_, h, by rw [enterBurst_eq]; rfl, hfifo, enterBurst_inb s, enterBurst_armed s, enterBurst_dpend s,
      exec_sameDeframer h rfl, exec_sameAst h rfl, exec_sameTransmit h rfl, exec_sameEnvironment h⟩
  case underflow =>
    have hremoves : removesFifo i = true := by rcases hi with rfl | rfl | rfl <;> rfl
    exact ⟨_, exec_removing_of_empty hremoves hempty, rfl, sameBlock_respond ..⟩

/-! ## The indices count modulo P_CAP (R149) -/

/-- What the parts of every event keep holds after any operations. -/
theorem KeptByParts.execAll {P : State → Prop} (kept : KeptByParts P) {is : List Instr} {s t : State} (hs : P s)
    (h : execAll is s = .next t) : P t := by
  induction is generalizing s with
  | nil => cases h; exact hs
  | cons i is ih =>
    obtain ⟨u, hu, hrest⟩ := execAll_cons_eq_next h
    exact ih (kept.exec hs hu) hrest

theorem exec_rdIdx_of_not_removing {i : Instr} {s t : State} (hi : removesFifo i = false) (h : exec i s = .next t) :
    t.rdIdx = s.rdIdx := by
  rw [exec_eq_overwrite h]
  cases i with
  | pop | parsef | packf => cases hi
  | _ => rfl

theorem exec_wrIdx_of_removing {i : Instr} {s t : State} (hi : removesFifo i = true) (h : exec i s = .next t) :
    t.wrIdx = s.wrIdx := by
  rw [exec_eq_overwrite h]
  cases i with
  | pop | parsef | packf => rfl
  | _ => cases hi

/-- R33: RDIDX advances by the bytes removed. -/
theorem exec_rdIdx {i : Instr} {s t : State} (hs : FifoInv s) (h : exec i s = .next t) :
    t.rdIdx = (s.rdIdx + (removedBytes i s).length) % s.params.pCap := by
  have hstays : s.rdIdx = (s.rdIdx + 0) % s.params.pCap := (Nat.mod_eq_of_lt hs.rdIdx_lt).symm
  unfold removedBytes
  split
  next hi =>
    rw [List.length_take, fifoContents_length]
    by_cases hempty : s.fill = 0
    · cases (exec_removing_of_empty hi hempty).symm.trans h
      rw [hempty]
      exact hstays
    · rw [(exec_removing_sameFifo hi hs hempty h).rdIdx, Nat.min_eq_left (Nat.pos_of_ne_zero hempty)]
      rfl
  next hi =>
    rw [exec_rdIdx_of_not_removing (Bool.not_eq_true _ ▸ hi) h]
    exact hstays

/-- R34: WRIDX advances by the bytes added. -/
theorem exec_wrIdx {i : Instr} {s t : State} (hs : FifoInv s) (h : exec i s = .next t) :
    t.wrIdx = (s.wrIdx + (addedBytes i s).length) % s.params.pCap := by
  have hstays : s.wrIdx = (s.wrIdx + 0) % s.params.pCap := (Nat.mod_eq_of_lt hs.wrIdx_lt).symm
  cases i with
  | push d =>
    rcases execPush_eq_next.mp h with ⟨hfull, rfl⟩ | ⟨hnotFull, -, rfl⟩
    · rw [addedBytes, if_pos hfull, respond_wrIdx, enterBurst_wrIdx]
      exact hstays
    · rw [addedBytes, if_neg hnotFull]
      rfl
  | _ =>
    rw [exec_eq_overwrite h]
    exact hstays

/-- R149: over any operations each index counts what was removed or added, modulo P_CAP. -/
theorem execAll_indices {is : List Instr} {s t : State} (hs : FifoInv s) (h : execAll is s = .next t) :
    t.rdIdx = (s.rdIdx + (removedBytesAll is s).length) % s.params.pCap ∧
      t.wrIdx = (s.wrIdx + (addedBytesAll is s).length) % s.params.pCap := by
  induction is generalizing s with
  | nil => cases h; exact ⟨(Nat.mod_eq_of_lt hs.rdIdx_lt).symm, (Nat.mod_eq_of_lt hs.wrIdx_lt).symm⟩
  | cons i is ih =>
    obtain ⟨u, hu, hrest⟩ := execAll_cons_eq_next h
    obtain ⟨hrd, hwr⟩ := ih (exec_keeps_fifoInv hs hu) hrest
    rw [exec_rdIdx hs hu, (exec_sameEnvironment hu).params, Nat.mod_add_mod, Nat.add_assoc] at hrd
    rw [exec_wrIdx hs hu, (exec_sameEnvironment hu).params, Nat.mod_add_mod, Nat.add_assoc] at hwr
    simp only [removedBytesAll, addedBytesAll, hu, List.length_append]
    exact ⟨hrd, hwr⟩

/-- R149: from an empty FIFO with RDIDX = 0 the indices are the counts themselves, modulo P_CAP, and FILL their
difference. -/
theorem execAll_counts {is : List Instr} {s t : State} (hs : FifoInv s) (hempty : s.fill = 0) (hstart : s.rdIdx = 0)
    (h : execAll is s = .next t) :
    t.rdIdx = (removedBytesAll is s).length % s.params.pCap ∧
      t.wrIdx = (addedBytesAll is s).length % s.params.pCap ∧
      t.fill + (removedBytesAll is s).length = (addedBytesAll is s).length := by
  obtain ⟨hrd, hwr⟩ := execAll_indices hs h
  obtain ⟨-, hfill⟩ := fifoKeepsOrder is s t hs h
  rw [hs.wrIdx_of_empty hempty] at hwr
  rw [hstart, Nat.zero_add] at hrd hwr
  rw [hempty, Nat.zero_add] at hfill
  exact ⟨hrd, hwr, hfill⟩

/-- R141: PUSHes for which there is room are all accepted. -/
theorem execAll_pushes {ds : List Byte} {s : State} (hs : FifoInv s) (hroom : s.fill + ds.length ≤ s.params.pCap) :
    ∃ t, execAll (ds.map .push) s = .next t ∧ t.fill = s.fill + ds.length ∧ t.rdIdx = s.rdIdx ∧
      t.params = s.params := by
  induction ds generalizing s with
  | nil => exact ⟨s, rfl, rfl, rfl, rfl⟩
  | cons d ds ih =>
    rw [List.length_cons] at hroom
    obtain ⟨u, hu, -, -, -, -, hfill, hrd, -, -, -, -, -, -, henv⟩ := pushStoresByte d s (by omega) hs.wrIdx_lt
    have hparams := henv.params
    obtain ⟨t, ht, hfill', hrd', hparams'⟩ := ih (exec_keeps_fifoInv hs hu) (by rw [hfill, hparams]; omega)
    refine ⟨t, (execAll_cons hu).trans ht, ?_, hrd'.trans hrd, hparams'.trans hparams⟩
    rw [hfill', hfill, List.length_cons]
    omega

/-- R145: each removing operation counts one byte off, as long as there is one. -/
theorem exec_removing_fill {i : Instr} {s t : State} (hi : removesFifo i = true) (h : exec i s = .next t) :
    t.fill = s.fill - 1 := by
  rw [← fifoContents_length, exec_removing_fifoContents hi h, List.length_drop, fifoContents_length]

/-- R143, R145: any removing operations answer, count their bytes off and leave WRIDX. -/
theorem execAll_removals {rs : List Instr} {s : State} (hs : FifoInv s) (hdef : DeframerInv s)
    (hrs : ∀ r ∈ rs, removesFifo r = true) :
    ∃ t, execAll rs s = .next t ∧ t.fill = s.fill - rs.length ∧ t.wrIdx = s.wrIdx := by
  induction rs generalizing s with
  | nil => exact ⟨s, rfl, rfl, rfl⟩
  | cons r rs ih =>
    obtain ⟨hr, hrs⟩ := List.forall_mem_cons.mp hrs
    obtain ⟨u, hu⟩ := exec_removing_answers hr hs hdef
    obtain ⟨t, ht, hfill, hwr⟩ := ih (exec_keeps_fifoInv hs hu) (exec_keeps_deframerInv hdef hu) hrs
    refine ⟨t, (execAll_cons hu).trans ht, ?_, hwr.trans (exec_wrIdx_of_removing hr hu)⟩
    rw [hfill, exec_removing_fill hr hu, List.length_cons, Nat.sub_sub, Nat.add_comm]

/-- R149: P_CAP PUSHes and P_CAP removals take an empty FIFO with RDIDX = 0 once around: WRIDX is 0 when it is full, and
RDIDX meets it when it is empty again. -/
theorem execAll_full_turn {ds : List Byte} {rs : List Instr} {s : State} (hs : FifoInv s) (hdef : DeframerInv s)
    (hempty : s.fill = 0) (hstart : s.rdIdx = 0) (hds : ds.length = s.params.pCap) (hlen : rs.length = s.params.pCap)
    (hrs : ∀ r ∈ rs, removesFifo r = true) :
    ∃ t, execAll (ds.map .push ++ rs) s = .next t ∧ t.rdIdx = 0 ∧ t.wrIdx = 0 ∧ t.fill = 0 := by
  obtain ⟨u, hu, hfill, hrd, hparams⟩ := execAll_pushes (ds := ds) hs (by omega)
  have hufifo : FifoInv u := keptByParts_fifoInv.execAll hs hu
  obtain ⟨t, ht, hfill', hwr'⟩ := execAll_removals hufifo (keptByParts_deframerInv.execAll hdef hu) hrs
  have huwr : u.wrIdx = 0 := by
    obtain ⟨-, -, -, -, hlink⟩ := hufifo
    rw [hlink, hrd, hstart, hfill, hempty, hds, hparams, Nat.zero_add, Nat.zero_add, Nat.mod_self]
  have htwr : t.wrIdx = 0 := hwr'.trans huwr
  have htfill : t.fill = 0 := by omega
  have hmeet : t.wrIdx = t.rdIdx := (keptByParts_fifoInv.execAll hufifo ht).wrIdx_of_empty htfill
  exact ⟨t, (execAll_append hu).trans ht, hmeet.symm.trans htwr, htwr, htfill⟩

/-- Settles O17: the indices count by `execAll_counts`, and a full turn ends where it began. -/
theorem fifoWrapsAround : Obligations.FifoWrapsAround := by
  have hreset {c : Params} (hwf : c.wf) : FifoInv { State.reset with params := c } :=
    FifoInv.resetBlock (s := { State.reset with params := c }) hwf
  refine ⟨fun c is t hwf h => ?counts, fun c ds rs hwf hds hlen hrs => ?turn⟩
  case counts => exact execAll_counts (hreset hwf) rfl rfl h
  case turn => exact execAll_full_turn (hreset hwf) (deframerInv_of_awaitStart rfl) rfl rfl hds hlen hrs

/-! ## RXFE's turn (R150) -/

/-- R150: a readable byte is taken and pushed. -/
theorem rxfeTurn_takes {s : State} {b : Byte} {rest : List Byte} (harmed : s.armed = true)
    (hbytes : s.rxBytes = b :: rest) :
    performEvent .rxfeTurn s = exec (.push b) { s with port := .rx, rxBytes := rest } := by
  simp only [performEvent, rxfeStep, harmed, hbytes, if_true]

/-- R150: the burst ends when nothing is readable. -/
theorem rxfeTurn_ends {s : State} (harmed : s.armed = true) (hinb : s.inb = true) (hbytes : s.rxBytes = []) :
    performEvent .rxfeTurn s = exec .detach { s with port := .rx } := by
  simp only [performEvent, rxfeStep, harmed, hbytes, hinb, if_true]

/-- R150: a detached RXFE has no step. -/
theorem rxfeTurn_of_detached {s : State} (hdetached : s.armed = false) : performEvent .rxfeTurn s = .next s := by
  simp only [performEvent, rxfeStep, hdetached, Bool.false_eq_true, if_false]

/-- R150: RXFE has no step while it waits for the first byte of a burst. -/
theorem rxfeTurn_waits {s : State} (hinb : s.inb = false) (hbytes : s.rxBytes = []) :
    performEvent .rxfeTurn s = .next s := by
  simp only [performEvent, rxfeStep, hbytes, hinb, Bool.false_eq_true, if_false, ite_self]

theorem issueWord_encode {p : Port} {i : Instr} (hi : i.legalOn p = true) (s : State) :
    issueWord p (encode i) s = exec i { s with port := p } :=
  issueWord_of_decode_ok (decode_encode_of_legalOn hi) s

/-- Settles O18: the operation of each turn is the one its word decodes to on the RX port. -/
theorem rxfeFollowsPolicy : Obligations.RxfeFollowsPolicy := by
  intro s
  refine ⟨fun b rest harmed hbytes => ?takes, fun harmed hinb hbytes => ?ends, fun hnone => ?none⟩
  case takes =>
    have hissued := issueWord_encode (i := .push b) (p := .rx) rfl { s with rxBytes := rest }
    exact (rxfeTurn_takes harmed hbytes).trans hissued.symm
  case ends =>
    have hissued := issueWord_encode (i := .detach) (p := .rx) rfl s
    exact (rxfeTurn_ends harmed hinb hbytes).trans hissued.symm
  case none =>
    rcases hnone with hdetached | ⟨hinb, hbytes⟩
    · exact rxfeTurn_of_detached hdetached
    · exact rxfeTurn_waits hinb hbytes

/-! ## A burst (R150, R152) -/

/-- R141: PUSH answers whether there is room or not, and sets INB while ARMED = 1. -/
theorem exec_push_answers (d : Byte) {s : State} (hs : FifoInv s) :
    ∃ t, exec (.push d) s = .next t ∧ t.inb = (s.inb || s.armed) ∧ t.armed = s.armed := by
  by_cases hfull : s.fill = s.params.pCap
  · exact ⟨_, exec_push_of_full d hfull, enterBurst_inb s, enterBurst_armed s⟩
  · obtain ⟨t, ht, -, -, -, -, -, -, hinb, harmed, -⟩ := pushStoresByte d s hfull hs.wrIdx_lt
    exact ⟨t, ht, hinb, harmed⟩

/-- R152: after a PUSH the FIFO has room for what it had room for behind the pushed byte. -/
theorem exec_push_room {d : Byte} {s t : State} (hs : FifoInv s) (h : exec (.push d) s = .next t) (rest : List Byte) :
    fifoContents t ++ rest.take (t.params.pCap - t.fill) =
      fifoContents s ++ (d :: rest).take (s.params.pCap - s.fill) := by
  have hcontents := exec_push_fifoContents hs h
  have hfill := congrArg List.length hcontents
  rw [List.length_append, fifoContents_length, fifoContents_length] at hfill
  obtain ⟨-, -, -, hle, -⟩ := hs
  rw [hcontents, hfill, (exec_sameEnvironment h).params, List.append_assoc]
  congr 1
  by_cases hfull : s.fill = s.params.pCap
  · rw [addedBytes, if_pos hfull, ← hfull, List.length_nil, Nat.add_zero, Nat.sub_self]
    rfl
  · have hroom : s.params.pCap - s.fill = s.params.pCap - (s.fill + 1) + 1 := by omega
    rw [addedBytes, if_neg hfull, hroom]
    rfl

/-- Settles O19, by induction on the bytes the transport holds: each turn pushes the oldest, the last one detaches. -/
theorem burstDrainsTransport : Obligations.BurstDrainsTransport := by
  intro s bs hs harmed hbytes hburst
  induction bs generalizing s with
  | nil =>
    have hinb : s.inb = true := hburst.resolve_left fun hne => hne rfl
    refine ⟨_, performAll_cons (rxfeTurn_ends harmed hinb hbytes), ?_, hbytes, rfl, rfl, rfl⟩
    rw [List.take_nil, List.append_nil]
    rfl
  | cons b rest ih =>
    have hs' : FifoInv { s with port := .rx, rxBytes := rest } := hs
    obtain ⟨u, hu, hinb, harmed'⟩ := exec_push_answers b hs'
    have huinb : u.inb = true := hinb.trans (by simp [harmed])
    obtain ⟨t, ht, hcontents, hdrained⟩ := ih u (exec_keeps_fifoInv hs' hu) (harmed'.trans harmed)
      (exec_sameEnvironment hu).rxBytes (.inr huinb)
    refine ⟨t, ?_, hcontents.trans (exec_push_room hs' hu rest), hdrained⟩
    rw [List.length_cons, List.replicate_succ, performAll_cons ((rxfeTurn_takes harmed hbytes).trans hu), ht]

/-! ## The pending dispatch (R153) -/

/-- The events under which the dispatch stays pending: all but a REARM, a reset and a test driver's word on the RX port. -/
abbrev LeavesDispatchPending (e : Event) : Prop :=
  e ≠ .reset ∧ (∀ w, e ≠ .rxWord w) ∧ ∀ writable, e ≠ .cmdWord (encode .rearm) writable

/-- What stays while the dispatch is pending: the interrupt's attachment, and all that a PUSH writes of the FIFO. -/
structure DispatchKept (s t : State) : Prop where
  armed : t.armed = s.armed
  dpend : t.dpend = s.dpend
  wrIdx : t.wrIdx = s.wrIdx
  bytes : ∀ i, t.byteAt .fifo i = s.byteAt .fifo i

theorem DispatchKept.trans {s t u : State} (h : DispatchKept s t) (h' : DispatchKept t u) : DispatchKept s u where
  armed := h'.armed.trans h.armed
  dpend := h'.dpend.trans h.dpend
  wrIdx := h'.wrIdx.trans h.wrIdx
  bytes i := (h'.bytes i).trans (h.bytes i)

theorem EnvChange.dispatchKept {s t : State} (h : EnvChange s t) : DispatchKept s t :=
  h.keeps ⟨rfl, rfl, rfl, fun _ => rfl⟩

/-- R111, R144: of the operations on the CMD port only REARM attaches the interrupt, and none stores a byte. -/
theorem exec_dispatchKept {i : Instr} {s t : State} (hlegal : i.legalOn .cmd = true) (hi : i ≠ .rearm)
    (h : exec i s = .next t) : DispatchKept s t := by
  rw [exec_eq_overwrite h]
  cases i with
  | push | detach => cases hlegal
  | rearm => exact absurd rfl hi
  | _ => exact ⟨rfl, rfl, rfl, fun _ => rfl⟩

/-- R8: an arriving byte changes the environment alone. -/
theorem byteArrives_envChange (b : Byte) (lost : Bool) (s : State) : EnvChange s (byteArrives b lost s) := by
  unfold byteArrives
  split <;> rfl

/-- R153: while RXFE is detached such an event leaves it so and the FIFO's bytes as they are. -/
theorem performEvent_dispatchKept {e : Event} {s t : State} (hdetached : s.armed = false)
    (he : LeavesDispatchPending e) (h : performEvent e s = .next t) : DispatchKept s t := by
  obtain ⟨hreset, hrx, hrearm⟩ := he
  cases e with
  | cmdWord w writable =>
    rcases issueWord_eq_next h with ⟨i, hdecode, hi⟩ | ⟨-, -, rfl⟩
    · obtain ⟨rfl, hlegal⟩ := decodeThenEncode _ _ _ hdecode
      have hne : i ≠ .rearm := fun heq => hrearm writable (by rw [heq])
      have hissued : EnvChange s { s with txWritable := writable, port := .cmd } := rfl
      exact hissued.dispatchKept.trans (exec_dispatchKept hlegal hne hi)
    · exact ⟨rfl, rfl, rfl, fun _ => rfl⟩
  | rxWord w => exact absurd rfl (hrx w)
  | rxfeTurn =>
    cases (rxfeTurn_of_detached hdetached).symm.trans h
    exact (EnvChange.refl s).dispatchKept
  | arrive b lost =>
    cases h
    exact (byteArrives_envChange b lost s).dispatchKept
  | reset => exact absurd rfl hreset

theorem performAll_cons_eq_next {e : Event} {es : List Event} {s t : State} (h : performAll (e :: es) s = .next t) :
    ∃ u, performEvent e s = .next u ∧ performAll es u = .next t := by
  rw [performAll] at h
  split at h
  next u hu => exact ⟨u, hu, h⟩
  all_goals cases h

/-- R153: and so does every run of such events. -/
theorem performAll_dispatchKept {es : List Event} {s t : State} (hdetached : s.armed = false)
    (hes : ∀ e ∈ es, LeavesDispatchPending e) (h : performAll es s = .next t) : DispatchKept s t := by
  induction es generalizing s with
  | nil => cases h; exact (EnvChange.refl _).dispatchKept
  | cons e es ih =>
    obtain ⟨he, hes⟩ := List.forall_mem_cons.mp hes
    obtain ⟨u, hu, hrest⟩ := performAll_cons_eq_next h
    have hkept := performEvent_dispatchKept hdetached he hu
    exact hkept.trans (ih (hkept.armed.trans hdetached) hes hrest)

/-- Settles O20: with DPEND = 1 RXFE is detached (R40), stays so, and has no step. -/
theorem noPushWhileDispatchPending : Obligations.NoPushWhileDispatchPending := by
  rintro es s t ⟨hexclusive, -⟩ hdpend hes h
  have hdetached : s.armed = false := Bool.eq_false_iff.mpr fun harmed => hexclusive ⟨harmed, hdpend⟩
  have hkept := performAll_dispatchKept hdetached hes h
  have hdetached' := hkept.armed.trans hdetached
  exact ⟨hkept.dpend.trans hdpend, hdetached', rxfeTurn_of_detached hdetached', hkept.wrIdx, hkept.bytes⟩

end Sys2Proof.Machine
end

section
/-! PROOFS. The link between two peers (spec/60_exceptions.md R274): what each emits reaches the other in order. -/

namespace Sys2Proof.Machine

/-- R18, R274: what an event of one peer emits goes behind the bytes in flight to the other. -/
theorem performEvent_puts_in_flight {ev : Event} {s t : State} {handed flight : List Byte}
    (h : performEvent ev s = .next t) (hs : s.emitted = handed ++ flight) :
    t.emitted = handed ++ (flight ++ t.emitted.drop s.emitted.length) := by
  obtain ⟨sent, hsent⟩ := performEvent_emitted h
  rw [hsent, List.drop_left, hs, List.append_assoc]

/-- A local event of the car is that event on the car's block, its bytes put in flight. -/
theorem peersStep_act_car {ev : Event} {q r : Peers} (hlocal : isLocalEvent ev = true)
    (h : peersStep (.act .car ev) q = .next r) : ∃ t, performEvent ev q.car = .next t ∧ r = q.afterCar t := by
  rw [peersStep, if_pos hlocal] at h
  split at h
  next t ht => cases h; exact ⟨t, ht, rfl⟩
  all_goals cases h

/-- A local event of the remote is that event on the remote's block, its bytes put in flight. -/
theorem peersStep_act_remote {ev : Event} {q r : Peers} (hlocal : isLocalEvent ev = true)
    (h : peersStep (.act .remote ev) q = .next r) :
    ∃ t, performEvent ev q.remote = .next t ∧ r = q.afterRemote t := by
  rw [peersStep, if_pos hlocal] at h
  split at h
  next t ht => cases h; exact ⟨t, ht, rfl⟩
  all_goals cases h

/-- A peer brings no arriving byte by itself: the pair has no step then. -/
theorem peersStep_act_of_not_local {who : Peer} {ev : Event} (hlocal : ¬ isLocalEvent ev = true) (q : Peers) :
    peersStep (.act who ev) q = .next q := by
  cases who with
  | car | remote => rw [peersStep, if_neg hlocal]

theorem peersStep_deliver_car {q : Peers} {b : Byte} {rest : List Byte} (hflight : q.toCar = b :: rest) (lost : Bool) :
    peersStep (.deliver .car lost) q =
      .next { q with car := byteArrives b lost q.car, toCar := rest, handedToCar := q.handedToCar ++ [b] } := by
  simp only [peersStep, hflight]

theorem peersStep_deliver_remote {q : Peers} {b : Byte} {rest : List Byte} (hflight : q.toRemote = b :: rest)
    (lost : Bool) :
    peersStep (.deliver .remote lost) q =
      .next { q with
        remote := byteArrives b lost q.remote, toRemote := rest, handedToRemote := q.handedToRemote ++ [b] } := by
  simp only [peersStep, hflight]

/-- R155: the byte the link hands over has arrived. -/
theorem byteReceived_byteArrives (b : Byte) (lost : Bool) (s : State) : ByteReceived b lost s (byteArrives b lost s) :=
  ⟨rfl, fun hkept => by rw [byteArrives_kept hkept]⟩

/-- On both ways of the link the bytes emitted are those handed over followed by those in flight (R274). -/
abbrev LinkInv (q : Peers) : Prop :=
  q.car.emitted = q.handedToRemote ++ q.toRemote ∧ q.remote.emitted = q.handedToCar ++ q.toCar

/-- R274: a local event puts in flight what it emits, a delivery moves the oldest byte from in flight to handed over. -/
theorem peersStep_keeps_linkInv {e : PeerEvent} {q r : Peers} (hq : LinkInv q) (h : peersStep e q = .next r) :
    LinkInv r := by
  obtain ⟨hcar, hremote⟩ := id hq
  cases e with
  | act who ev =>
    by_cases hlocal : isLocalEvent ev = true
    · cases who with
      | car =>
        obtain ⟨t, ht, rfl⟩ := peersStep_act_car hlocal h
        exact ⟨performEvent_puts_in_flight ht hcar, hremote⟩
      | remote =>
        obtain ⟨t, ht, rfl⟩ := peersStep_act_remote hlocal h
        exact ⟨hcar, performEvent_puts_in_flight ht hremote⟩
    · cases (peersStep_act_of_not_local hlocal q).symm.trans h
      exact hq
  | deliver who lost =>
    cases who with
    | car =>
      cases hflight : q.toCar with
      | nil => simp only [peersStep, hflight] at h; cases h; exact hq
      | cons b rest =>
        cases (peersStep_deliver_car hflight lost).symm.trans h
        exact ⟨(byteArrives_emitted ..).trans hcar, by simp [hremote, hflight]⟩
    | remote =>
      cases hflight : q.toRemote with
      | nil => simp only [peersStep, hflight] at h; cases h; exact hq
      | cons b rest =>
        cases (peersStep_deliver_remote hflight lost).symm.trans h
        exact ⟨by simp [hcar, hflight], (byteArrives_emitted ..).trans hremote⟩

/-- Settles O59: the step invariant of the link, then each kind of step by its equation. -/
theorem linkCarriesEmittedBytes : Obligations.LinkCarriesEmittedBytes := by
  refine ⟨fun e q r h hcar hremote => peersStep_keeps_linkInv ⟨hcar, hremote⟩ h, fun q b rest lost hflight => ?toCar,
    fun q b rest lost hflight => ?toRemote, fun ev q r hlocal => ⟨fun h => ?actCar, fun h => ?actRemote⟩⟩
  case toCar =>
    exact ⟨_, peersStep_deliver_car hflight lost, byteReceived_byteArrives .., rfl, rfl, rfl, rfl, rfl⟩
  case toRemote =>
    exact ⟨_, peersStep_deliver_remote hflight lost, byteReceived_byteArrives .., rfl, rfl, rfl, rfl, rfl⟩
  case actCar =>
    obtain ⟨t, ht, rfl⟩ := peersStep_act_car hlocal h
    exact ⟨ht, rfl, rfl, rfl, rfl⟩
  case actRemote =>
    obtain ⟨t, ht, rfl⟩ := peersStep_act_remote hlocal h
    exact ⟨ht, rfl, rfl, rfl, rfl⟩

end Sys2Proof.Machine
end

section
/-! PROOFS. The statements on the deframer (spec/41_deframer.md): its transition table, the frames it accepts and those
that break, and the length latched at the start marker. -/

namespace Sys2Proof.Machine

/-! ## The transition table (R170) -/

/-- R122: PARSE answers the result code of its deframer step, on the port `s` serves. -/
theorem answered_of_dstep {b : Byte} {s u : State} {rc : ResultCode} (data : Data) (h : dstep b s = .ok (rc, u)) :
    Answered rc data s (respond rc data u) :=
  dstep_keeps (P := fun u => Answered rc data s (respond rc data u)) h rfl

/-- R176: PARSE writes nothing outside the deframer. -/
theorem exec_parse_onlyDeframer {b : Byte} {s t : State} (h : exec (.parse b) s = .next t) : OnlyDeframer s t where
  fifo := exec_sameFifo h rfl
  ingress := exec_sameIngress h rfl
  len := by rw [exec_eq_overwrite h]; rfl
  ast := exec_sameAst h rfl
  transmit := exec_sameTransmit h rfl
  environment := exec_sameEnvironment h

theorem resynced_resync (b : Byte) (s : State) : Resynced b s (resync b s) := by
  unfold resync Resynced
  split <;> exact ⟨rfl, rfl, rfl, rfl⟩

theorem byteAt_rxpay_resync (b : Byte) (s : State) (i : Nat) : (resync b s).byteAt .rxpay i = s.byteAt .rxpay i :=
  byteAt_congr (sp := .rxpay) (resync_rxpay b s) (by unfold resync; split <;> rfl) i

/-- Settles O23: PARSE is `dstep` and its answer; each row is the case of `dstep_eq_ok` for its state. -/
theorem parseFollowsTransitionTable : Obligations.ParseFollowsTransitionTable := by
  intro b s hcount
  obtain ⟨rc, u, hd⟩ := dstep_answers b s hcount
  have h : exec (.parse b) s = .next _ := execParse_eq_next.mpr ⟨rc, u, hd, rfl⟩
  have hanswer := answered_of_dstep (deframerData rc u.flen b) hd
  refine ⟨_, h, exec_parse_onlyDeframer h, ?_⟩
  rcases dstep_eq_ok.mp hd with
    ⟨hp, rfl, rfl⟩ | ⟨hp, rfl, hc⟩ | ⟨hp, rfl, rfl⟩ | ⟨hp, hb, rfl, rfl⟩ | ⟨hp, hb, rfl, rfl⟩
  all_goals simp only [hp]
  · refine ⟨hanswer, ?_⟩
    split
    · exact ⟨fun _ => rfl, rfl, rfl, rfl, rfl⟩
    · exact ⟨fun _ => rfl, rfl, rfl, rfl, hp⟩
  · obtain ⟨-, rfl⟩ := collectByte_eq_ok.mp hc
    exact ⟨hanswer, byteAt_write_same s .rxpay _ b, fun i hi => byteAt_write_ne s .rxpay b hi, rfl, rfl, rfl,
      by rw [respond_pst, hp]⟩
  · refine ⟨hanswer, ?_⟩
    split
    · exact ⟨fun _ => rfl, rfl, rfl, rfl, rfl⟩
    · exact ⟨byteAt_rxpay_resync b s, resynced_resync b s⟩
  · rw [if_pos hb]
    exact ⟨fun _ => rfl, hanswer, rfl, rfl, rfl, rfl⟩
  · rw [if_neg hb]
    exact ⟨byteAt_rxpay_resync b s, hanswer, resynced_resync b s⟩

/-! ## A broken frame (R175, R185) -/

theorem resync_of_discarding {b : Byte} {s : State} (h : s.params.resyncReexamine = false ∨ b ≠ startMarker) :
    resync b s = { s with pst := .awaitStart } := by
  rw [resync, if_neg (by rcases h with h | h <;> simp [h])]

/-- R170: in AWAIT_START a byte other than the start marker is passed over. -/
theorem execAll_parse_skipped {b : Byte} {is : List Instr} {s : State} (hs : s.pst = .awaitStart)
    (hb : b ≠ startMarker) :
    execAll (.parse b :: is) s = execAll is { s with responses := s.responses ++ okAnswers s [b] } :=
  execAll_parse_cons (dstep_eq_ok.mpr (.inl ⟨hs, rfl, (if_neg hb).symm⟩))

/-- R170: EM1 after the payload continues the frame. -/
theorem dstep_endMarker1 {s : State} (hs : s.pst = .awaitEnd1) :
    dstep endMarker1 s = .ok (.ok, { s with pst := .awaitEnd2 }) :=
  dstep_eq_ok.mpr (.inr (.inr (.inl ⟨hs, rfl, (if_pos rfl).symm⟩)))

/-- R170, R175: a byte after EM1 that is neither EM2 nor the start marker breaks the frame. -/
theorem execAll_parse_broken {b : Byte} {is : List Instr} {s : State} (hs : s.pst = .awaitEnd1) (hb : b ≠ endMarker2)
    (hb' : b ≠ startMarker) :
    execAll (.parse endMarker1 :: .parse b :: is) s =
      execAll is { s with pst := .awaitStart, responses := s.responses ++ okAnswers s [endMarker1, b] } := by
  rw [execAll_parse_cons (dstep_endMarker1 hs),
    execAll_parse_cons (dstep_eq_ok.mpr (.inr (.inr (.inr (.inr ⟨rfl, hb, rfl, rfl⟩))))),
    resync_of_discarding (.inr hb')]
  simp only [respond, okAnswers, List.append_assoc]
  rfl

/-- R185: the malformed bytes end in AWAIT_START, every byte of it answered OK. -/
theorem execAll_parse_malformedPrefix {s : State} (hs : s.pst = .awaitStart) (hlen : s.len = 2) :
    ∃ u, execAll (([0x24, 0x41, 0x41, 0x40, 0x58, 0x23] : List Byte).map .parse) s = .next u ∧
      u.pst = .awaitStart ∧ u.len = s.len ∧ u.port = s.port ∧
      u.responses = s.responses ++ okAnswers s [0x24, 0x41, 0x41, 0x40, 0x58, 0x23] := by
  have hroom : 0 + ([0x41, 0x41] : List Byte).length ≤ spaceSize (startFrame s).params .rxpay := by simp [spaceSize]
  obtain ⟨m, hrun, -⟩ := memWriteRun_ok [0x41, 0x41] 0 (startFrame s) hroom
  have hpayload := execAll_parse_payload (n := 0) (rs := s.responses ++ okAnswers s [startMarker])
    (by simp [hlen]) hrun
  have hbroken : ∀ {v : State}, v.pst = .awaitEnd1 → execAll [.parse 0x40, .parse 0x58, .parse 0x23] v =
      .next { v with
        pst := .awaitStart
        responses := v.responses ++ okAnswers v [0x40, 0x58] ++ okAnswers v [0x23] } := fun hv =>
    (execAll_parse_broken hv (by decide) (by decide)).trans (execAll_parse_skipped rfl (by decide))
  refine ⟨_, (execAll_parse_startMarker hs).trans ((execAll_append hpayload).trans (hbroken (if_pos rfl))),
    rfl, rfl, rfl, ?_⟩
  show s.responses ++ okAnswers s [0x24] ++ okAnswers s [0x41, 0x41] ++ okAnswers s [0x40, 0x58] ++
    okAnswers s [0x23] = _
  simp [okAnswers]

/-- Settles O28: the malformed bytes lead back to AWAIT_START, and from there a whole frame is delivered. -/
theorem malformedPrefixDoesNotLeak : Obligations.MalformedPrefixDoesNotLeak := by
  intro s p0 p1 hs hlen
  obtain ⟨u, hmalformed, hu, hulen, hport, hresponses⟩ := execAll_parse_malformedPrefix hs hlen
  obtain ⟨t, hframe, hanswers, -, hfv, hflen, hbytes⟩ :=
    wholeFrameDelivered [p0, p1] u hu (by rw [hulen, hlen]; rfl)
  rw [hulen, hlen] at hanswers hflen
  refine ⟨t, (execAll_append hmalformed).trans hframe, ?_, hbytes 0 (by simp), hbytes 1 (by simp), hflen, hfv⟩
  rw [hanswers, hresponses, hport]
  simp [okAnswers, startMarker, endMarker1, responseWord, ResultCode.code, endMarker2]

/-! ## A candidate frame or ack ends (R184) -/

theorem bytesToEnd_eq_zero_iff {s : State} : bytesToEnd s = 0 ↔ s.pst = .awaitStart := by
  unfold bytesToEnd
  cases s.pst <;> simp

theorem bytesToEnd_le (s : State) : bytesToEnd s ≤ 257 := by
  have hflen := s.flen.isLt
  unfold bytesToEnd
  cases s.pst <;> dsimp only <;> omega

/-- R184: each byte a candidate frame takes leaves it fewer to take. -/
theorem bytesToEnd_dstep_lt {b : Byte} {s t : State} {rc : ResultCode} (hs : DeframerInv s)
    (hp : s.pst ≠ .awaitStart) (hre : s.params.resyncReexamine = false) (h : dstep b s = .ok (rc, t)) :
    bytesToEnd t < bytesToEnd s := by
  rw [dstep_eq_ok, resync_of_discarding (.inl hre)] at h
  rcases h with ⟨hp', -⟩ | ⟨hp, -, hc⟩ | ⟨hp, -, rfl⟩ | ⟨hp, -, -, rfl⟩ | ⟨hp, -, -, rfl⟩
  · exact absurd hp' hp
  · obtain ⟨-, rfl⟩ := collectByte_eq_ok.mp hc
    have hlt : s.pcount < s.flen := hs.1 hp
    simp only [bytesToEnd, hp]
    split <;> bv_omega
  · split <;> simp [bytesToEnd, hp]
  all_goals simp [bytesToEnd, hp]

/-- R184: with as many bytes as the candidate frame can take, PARSE ends it. -/
theorem execAll_parse_reaches_awaitStart {xs : List Byte} {s : State} (hs : DeframerInv s)
    (hre : s.params.resyncReexamine = false) (hlen : bytesToEnd s ≤ xs.length) :
    ∃ k ≤ xs.length, ∃ t, execAll ((xs.take k).map .parse) s = .next t ∧ t.pst = .awaitStart := by
  by_cases hp : s.pst = .awaitStart
  · exact ⟨0, Nat.zero_le _, s, rfl, hp⟩
  induction xs generalizing s with
  | nil => exact absurd (bytesToEnd_eq_zero_iff.mp (Nat.le_zero.mp hlen)) hp
  | cons b xs ih =>
    obtain ⟨rc, u, hd⟩ := dstep_answers b s hs.pcount_lt
    have hless := bytesToEnd_dstep_lt hs hp hre hd
    have hexec : exec (.parse b) s = .next _ := execParse_eq_next.mpr ⟨rc, u, hd, rfl⟩
    by_cases hu : u.pst = .awaitStart
    · exact ⟨1, Nat.le_add_left .., _, execAll_cons hexec, hu⟩
    · obtain ⟨k, hk, t, ht, hend⟩ := ih (exec_keeps_deframerInv hs hexec)
        ((congrArg Params.resyncReexamine (exec_sameEnvironment hexec).params).trans hre)
        (Nat.le_of_lt_succ (Nat.lt_of_lt_of_le hless hlen)) hu
      exact ⟨k + 1, Nat.succ_le_succ hk, t, (execAll_cons hexec).trans ht, hend⟩

/-- R178: after AK1 any byte ends the ack frame. -/
theorem exec_pack_ends_of_aGotAk1 (c : Byte) {s : State} (hs : s.ast = .aGotAk1)
    (hre : s.params.resyncReexamine = false) : ∃ t, exec (.pack c) s = .next t ∧ t.ast = .aStart := by
  obtain ⟨t, ht, -, hast⟩ := exec_pack_answers c s
  refine ⟨t, ht, hast.trans ?_⟩
  have htable := astep_table c s
  simp only [hs, ackResynced, hre] at htable
  split at htable
  · exact htable.2
  · simpa using htable.2

/-- R178: after the start marker AK1 continues the ack frame and any other byte ends it. -/
theorem exec_pack_of_aGotSm (b : Byte) {s : State} (hs : s.ast = .aGotSm) (hre : s.params.resyncReexamine = false) :
    ∃ t, exec (.pack b) s = .next t ∧ (t.ast = .aGotAk1 ∨ t.ast = .aStart) := by
  obtain ⟨t, ht, -, hast⟩ := exec_pack_answers b s
  refine ⟨t, ht, ?_⟩
  have htable := astep_table b s
  simp only [hs, ackResynced, hre, ← hast] at htable
  obtain ⟨-, hnext⟩ := htable
  split at hnext
  · exact .inl hnext
  · exact .inr (by simpa using hnext)

/-- R184: two bytes end an ack candidate. -/
theorem execAll_pack_reaches_aStart (s : State) (b c : Byte) (hre : s.params.resyncReexamine = false) :
    ∃ k ≤ 2, ∃ t, execAll (([b, c].take k).map .pack) s = .next t ∧ t.ast = .aStart := by
  cases hs : s.ast with
  | aStart => exact ⟨0, by decide, s, rfl, hs⟩
  | aGotAk1 =>
    obtain ⟨t, ht, hend⟩ := exec_pack_ends_of_aGotAk1 b hs hre
    exact ⟨1, by decide, t, execAll_cons ht, hend⟩
  | aGotSm =>
    obtain ⟨u, hu, hmid | hend⟩ := exec_pack_of_aGotSm b hs hre
    · have hre' := (congrArg Params.resyncReexamine (exec_sameEnvironment hu).params).trans hre
      obtain ⟨t, ht, hend⟩ := exec_pack_ends_of_aGotAk1 c hmid hre'
      exact ⟨2, by decide, t, (execAll_cons hu).trans (execAll_cons ht), hend⟩
    · exact ⟨1, by decide, u, execAll_cons hu, hend⟩

/-- Settles O29: the bytes a candidate frame can take decrease with each byte; an ack candidate takes two at most. -/
theorem recognizersNeverLockUp : Obligations.RecognizersNeverLockUp :=
  ⟨fun s hs => ⟨bytesToEnd_le s, fun _ hre hlen => execAll_parse_reaches_awaitStart hs hre hlen.ge⟩,
    execAll_pack_reaches_aStart⟩

/-! ## The length latched at the start marker (R171, R188) -/

/-- R188: LEN has no part in a step of a frame in progress, and the answers given before have none in any. -/
theorem dstep_of_lengthLatched {b n : Byte} {s u : State} {rc : ResultCode} (rs : List (Port × Word))
    (hin : s.pst = .collecting ∨ (s.pst ≠ .awaitStart ∧ s.params.resyncReexamine = false))
    (h : dstep b s = .ok (rc, u)) :
    dstep b { s with len := n, responses := rs } = .ok (rc, { u with len := n, responses := rs }) := by
  have hresync : s.pst ≠ .collecting →
      resync b { s with len := n, responses := rs } = { resync b s with len := n, responses := rs } := fun hp => by
    have hre : s.params.resyncReexamine = false := (hin.resolve_left hp).2
    rw [resync_of_discarding (.inl hre), resync_of_discarding (s := { s with len := n, responses := rs }) (.inl hre)]
  rw [dstep_eq_ok] at h ⊢
  rcases h with ⟨hp, -⟩ | ⟨hp, rfl, hc⟩ | ⟨hp, rfl, rfl⟩ | ⟨hp, hb, rfl, rfl⟩ | ⟨hp, hb, rfl, rfl⟩
  · simp [hp] at hin
  · obtain ⟨hlt, rfl⟩ := collectByte_eq_ok.mp hc
    exact .inr (.inl ⟨hp, rfl, collectByte_eq_ok.mpr ⟨hlt, rfl⟩⟩)
  · refine .inr (.inr (.inl ⟨hp, rfl, ?_⟩))
    split
    · rfl
    · exact (hresync (by simp [hp])).symm
  · exact .inr (.inr (.inr (.inl ⟨hp, hb, rfl, rfl⟩)))
  · exact .inr (.inr (.inr (.inr ⟨hp, hb, rfl, (hresync (by simp [hp])).symm⟩)))

/-- Settles O30: the deframer step is the same after the SETLEN as before it, LEN and the answers apart. -/
theorem lengthLatchedAtStart : Obligations.LengthLatchedAtStart := by
  intro n b s hs hin
  obtain ⟨rc, u, hd⟩ := dstep_answers b s hs.pcount_lt
  have hparse : exec (.parse b) s = .next _ := execParse_eq_next.mpr ⟨rc, u, hd, rfl⟩
  have hd' := dstep_of_lengthLatched (n := n) (s.responses ++ [(s.port, responseWord .ok 0)]) hin hd
  have hlater : exec (.parse b) (respond .ok 0 { s with len := n }) = .next _ :=
    execParse_eq_next.mpr ⟨rc, _, hd', rfl⟩
  exact ⟨_, _, (execAll_cons rfl).trans (execAll_cons hlater), (execAll_cons hparse).trans (execAll_cons rfl), rfl⟩

end Sys2Proof.Machine
end

section
/-! PROOFS. Exact acceptance (spec/41_deframer.md R183): which bytes given to PARSE end in the answer FRAME. -/

namespace Sys2Proof.Machine

/-! ## Operations in order keep the environment (R243) -/

theorem execAll_sameEnvironment {is : List Instr} {s t : State} (h : execAll is s = .next t) : SameEnvironment s t := by
  induction is generalizing s with
  | nil => cases h; exact ⟨rfl, rfl, rfl, rfl, rfl, rfl⟩
  | cons i is ih =>
    obtain ⟨u, hu, hrest⟩ := execAll_cons_eq_next h
    have h₁ := exec_sameEnvironment hu
    have h₂ := ih hrest
    exact ⟨h₂.params.trans h₁.params, h₂.drawEpoch.trans h₁.drawEpoch, h₂.port.trans h₁.port,
      h₂.txWritable.trans h₁.txWritable, h₂.rxBytes.trans h₁.rxBytes, h₂.events.trans h₁.events⟩

/-! ## A byte with the length set before it (R183) -/

/-- R171: `s` after a SETLEN. -/
def lengthSet (l : Byte) (s : State) : State := respond .ok 0 { s with len := l }

theorem exec_setlen (l : Byte) (s : State) : exec (.setlen l) s = .next (lengthSet l s) := rfl

theorem execAll_feedOps_cons {l b : Byte} {xs : List (Byte × Byte)} {s u : State} {rc : ResultCode}
    (h : dstep b (lengthSet l s) = .ok (rc, u)) :
    execAll (feedOps ((l, b) :: xs)) s = execAll (feedOps xs) (respond rc (deframerData rc u.flen b) u) :=
  (execAll_cons (exec_setlen l s)).trans (execAll_parse_cons h)

theorem execAll_feedOps_append {xs ys : List (Byte × Byte)} {s u : State} (h : execAll (feedOps xs) s = .next u) :
    execAll (feedOps (xs ++ ys)) s = execAll (feedOps ys) u := by
  rw [feedOps, List.flatMap_append]
  exact execAll_append h

/-! ## The frame in progress -/

/-- `s` is within a frame of length `L` with the payload bytes `bs` collected: in COLLECTING, or at EM1 once they are
all there (R170). -/
structure Collected (L : Byte) (bs : List Byte) (s : State) : Prop where
  flen : s.flen = L
  pcount : s.pcount.toNat = bs.length
  room : bs.length ≤ L.toNat
  pst : s.pst = if bs.length = L.toNat then .awaitEnd1 else .collecting
  bytes : ∀ (k : Nat) (hk : k < bs.length), s.byteAt .rxpay k = bs[k]

theorem Collected.after_lengthSet {L : Byte} {bs : List Byte} {s : State} (h : Collected L bs s) (l : Byte) :
    Collected L bs (lengthSet l s) :=
  ⟨h.flen, h.pcount, h.room, h.pst, h.bytes⟩

theorem Collected.after_respond {L : Byte} {bs : List Byte} {s : State} (h : Collected L bs s) (rc : ResultCode)
    (data : Data) : Collected L bs (respond rc data s) :=
  ⟨h.flen, h.pcount, h.room, h.pst, h.bytes⟩

/-- R172: a frame starts with no byte collected. -/
theorem collected_startFrame (s : State) : Collected s.len [] (startFrame s) where
  flen := rfl
  pcount := rfl
  room := Nat.zero_le _
  pst := by
    have hzero : s.len = 0 ↔ 0 = s.len.toNat := by
      rw [eq_comm, ← BitVec.toNat_inj]
      rfl
    simp only [startFrame_pst, List.length_nil, hzero]
  bytes := nofun

theorem dstep_startMarker {s : State} (hs : s.pst = .awaitStart) :
    dstep startMarker s = .ok (.ok, startFrame s) :=
  dstep_eq_ok.mpr (.inl ⟨hs, rfl, (if_pos rfl).symm⟩)

/-- R173: short of `L` bytes the frame collects one more, whatever it is. -/
theorem Collected.dstep_collects {L b : Byte} {bs : List Byte} {s : State} (h : Collected L bs s)
    (hroom : bs.length < L.toNat) : ∃ u, dstep b s = .ok (.ok, u) ∧ Collected L (bs ++ [b]) u := by
  have hmax := L.isLt
  have hlen : (bs ++ [b]).length = bs.length + 1 := List.length_append
  have hpcount := h.pcount
  have hp : s.pst = .collecting := by rw [h.pst, if_neg hroom.ne]
  have hnext : (s.pcount + 1).toNat = bs.length + 1 := by bv_omega
  have hfull : s.pcount + 1 = s.flen ↔ (bs ++ [b]).length = L.toNat := by
    rw [h.flen, hlen, ← hnext, BitVec.toNat_inj]
  refine ⟨_, dstep_eq_ok.mpr (.inr (.inl ⟨hp, rfl, collectByte_eq_ok.mpr ⟨by omega, rfl⟩⟩)),
    h.flen, hnext.trans hlen.symm, by omega, ?pst, fun k hk => ?bytes⟩
  case pst => simp only [hfull, hp]
  case bytes =>
    by_cases hlast : k = bs.length
    · subst hlast
      rw [List.getElem_concat_length rfl, ← hpcount]
      exact byteAt_write_same s .rxpay _ b
    · rw [hlen] at hk
      rw [List.getElem_append_left (by omega), ← h.bytes k (by omega)]
      exact byteAt_write_ne s .rxpay b (by omega)

/-- R170, R175: with the payload complete EM1 leads to AWAIT_END2, and any other byte discards the frame. -/
theorem Collected.dstep_complete {L b : Byte} {bs : List Byte} {s : State} (h : Collected L bs s)
    (hfull : bs.length = L.toNat) (hre : s.params.resyncReexamine = false) :
    dstep b s = .ok (.ok, { s with pst := if b = endMarker1 then .awaitEnd2 else .awaitStart }) := by
  have hp : s.pst = .awaitEnd1 := by rw [h.pst, if_pos hfull]
  refine dstep_eq_ok.mpr (.inr (.inr (.inl ⟨hp, rfl, ?_⟩)))
  rw [resync_of_discarding (.inl hre)]
  split <;> rfl

/-! ## A frame that is accepted (R183, from its bytes to its answer) -/

/-- R173: the rest of a payload is collected, whatever LEN is. -/
theorem execAll_feedOps_payload {L : Byte} {mid : List (Byte × Byte)} {bs : List Byte} {s : State}
    (h : Collected L bs s) (hlen : bs.length + mid.length = L.toNat) :
    ∃ u, execAll (feedOps mid) s = .next u ∧ Collected L (bs ++ mid.map (·.2)) u := by
  induction mid generalizing bs s with
  | nil => exact ⟨s, rfl, by rwa [List.map_nil, List.append_nil]⟩
  | cons x mid ih =>
    rw [List.length_cons] at hlen
    obtain ⟨v, hv, hcollected⟩ := (h.after_lengthSet x.1).dstep_collects (b := x.2) (by omega)
    obtain ⟨u, hu, hall⟩ := ih (hcollected.after_respond .ok (deframerData .ok v.flen x.2))
      (by rw [List.length_append, List.length_singleton]; omega)
    rw [List.append_assoc] at hall
    exact ⟨u, (execAll_feedOps_cons hv).trans hu, hall⟩

/-- R170: EM1 and EM2 after the payload complete the frame, whatever LEN is. -/
theorem execAll_feedOps_endMarkers {s : State} (l1 l2 : Byte) (hs : s.pst = .awaitEnd1) :
    ∃ u, execAll (feedOps [(l1, endMarker1), (l2, endMarker2)]) s = .next u ∧
      u.responses.getLast? = some (s.port, responseWord .frame (s.flen ++ endMarker2)) ∧
      u.flen = s.flen ∧ u.fv = true ∧ ∀ i, u.byteAt .rxpay i = s.byteAt .rxpay i := by
  refine ⟨_, (execAll_feedOps_cons (dstep_endMarker1 (s := lengthSet l1 s) hs)).trans
    (execAll_feedOps_cons (dstep_eq_ok.mpr (.inr (.inr (.inr (.inl ⟨rfl, rfl, rfl, rfl⟩)))))),
    List.getLast?_concat, rfl, rfl, fun _ => rfl⟩

/-- R183: a whole frame fed in AWAIT_START is accepted, with the length in force at its start marker. -/
theorem execAll_feedOps_frame {L : Byte} {mid : List (Byte × Byte)} {s : State} (l1 l2 : Byte)
    (hs : s.pst = .awaitStart) (hlen : mid.length = L.toNat) :
    ∃ u, execAll (feedOps ((L, startMarker) :: mid ++ [(l1, endMarker1), (l2, endMarker2)])) s = .next u ∧
      u.responses.getLast? = some (s.port, responseWord .frame (L ++ endMarker2)) ∧
      u.flen = L ∧ u.fv = true ∧ ∀ (k : Nat) (hk : k < mid.length), u.byteAt .rxpay k = (mid[k]).2 := by
  have hstart := dstep_startMarker (s := lengthSet L s) hs
  have hopened : Collected L [] (respond .ok (deframerData .ok L startMarker) (startFrame (lengthSet L s))) :=
    (collected_startFrame (lengthSet L s)).after_respond ..
  obtain ⟨v, hv, hall⟩ := execAll_feedOps_payload (mid := mid) hopened ((Nat.zero_add _).trans hlen)
  rw [List.nil_append] at hall
  have hpst : v.pst = .awaitEnd1 := by rw [hall.pst, List.length_map, if_pos hlen]
  obtain ⟨u, hu, hanswer, hflen, hfv, hbytes⟩ := execAll_feedOps_endMarkers l1 l2 hpst
  rw [(execAll_sameEnvironment hv).port, hall.flen] at hanswer
  refine ⟨u, (execAll_feedOps_cons hstart).trans ((execAll_feedOps_append hv).trans hu), hanswer,
    hflen.trans hall.flen, hfv, fun k hk => ?_⟩
  rw [hbytes, hall.bytes k (by rwa [List.length_map]), List.getElem_map]

/-! ## What the bytes so far amount to (R183, from the answer to the bytes) -/

/-- Among the bytes `xs` fed from `s` a start marker was read in AWAIT_START with LEN = `L`, and `rest` came since. -/
def OpenedBefore (s : State) (xs : List (Byte × Byte)) (L : Byte) (rest : List (Byte × Byte)) : Prop :=
  ∃ pre t, xs = pre ++ (L, startMarker) :: rest ∧ execAll (feedOps pre) s = .next t ∧ t.pst = .awaitStart

theorem OpenedBefore.snoc {s : State} {xs rest : List (Byte × Byte)} {L : Byte} (h : OpenedBefore s xs L rest)
    (x : Byte × Byte) : OpenedBefore s (xs ++ [x]) L (rest ++ [x]) := by
  obtain ⟨pre, t, rfl, hpre, ht⟩ := h
  exact ⟨pre, t, by simp, hpre, ht⟩

/-- What the deframer's state `u` after the bytes `xs` fed from `s` says of them. -/
inductive Candidate (s : State) (xs : List (Byte × Byte)) (u : State) : Prop
  | none : u.pst = .awaitStart → Candidate s xs u
  | payload (L : Byte) (mid : List (Byte × Byte)) : OpenedBefore s xs L mid → Collected L (mid.map (·.2)) u →
      Candidate s xs u
  | ended (L l1 : Byte) (mid : List (Byte × Byte)) : OpenedBefore s xs L (mid ++ [(l1, endMarker1)]) →
      mid.length = L.toNat → u.pst = .awaitEnd2 → Candidate s xs u

theorem Candidate.after_respond {s u : State} {xs : List (Byte × Byte)} (h : Candidate s xs u) (rc : ResultCode)
    (data : Data) : Candidate s xs (respond rc data u) := by
  cases h with
  | none hp => exact .none hp
  | payload L mid hopened hcollected => exact .payload L mid hopened (hcollected.after_respond rc data)
  | ended L l1 mid hopened hlen hp => exact .ended L l1 mid hopened hlen hp

/-- The bytes `xs` fed from `s` end in a whole frame opened in AWAIT_START. -/
def EndsInFrame (s : State) (xs : List (Byte × Byte)) : Prop :=
  ∃ (L l1 l2 : Byte) (mid : List (Byte × Byte)),
    OpenedBefore s xs L (mid ++ [(l1, endMarker1), (l2, endMarker2)]) ∧ mid.length = L.toNat

/-- In AWAIT_START the start marker opens a frame behind the bytes so far, and any other byte opens none. -/
theorem Candidate.dstep_of_none {s u : State} {xs : List (Byte × Byte)} (hrun : execAll (feedOps xs) s = .next u)
    (hp : u.pst = .awaitStart) (l b : Byte) :
    ∃ v, dstep b (lengthSet l u) = .ok (.ok, v) ∧ Candidate s (xs ++ [(l, b)]) v := by
  refine ⟨_, dstep_eq_ok.mpr (.inl ⟨hp, rfl, rfl⟩), ?_⟩
  split
  next hb =>
    subst hb
    exact .payload l [] ⟨xs, u, rfl, hrun, hp⟩ (collected_startFrame (lengthSet l u))
  next => exact .none hp

/-- Within a payload the byte is collected; at EM1 it continues the frame or discards it. -/
theorem Candidate.dstep_of_payload {s u : State} {xs mid : List (Byte × Byte)} {L : Byte}
    (hopened : OpenedBefore s xs L mid) (hcollected : Collected L (mid.map (·.2)) u)
    (hre : u.params.resyncReexamine = false) (l b : Byte) :
    ∃ v, dstep b (lengthSet l u) = .ok (.ok, v) ∧ Candidate s (xs ++ [(l, b)]) v := by
  have hset := hcollected.after_lengthSet l
  rcases hset.room.lt_or_eq with hroom | hfull
  · obtain ⟨v, hv, hmore⟩ := hset.dstep_collects (b := b) hroom
    exact ⟨v, hv, .payload L (mid ++ [(l, b)]) (hopened.snoc _) (by rwa [List.map_append])⟩
  · refine ⟨_, hset.dstep_complete hfull hre, ?_⟩
    split
    next hb =>
      subst hb
      exact .ended L l mid (hopened.snoc _) (by rwa [List.length_map] at hfull) rfl
    next => exact .none rfl

/-- One more byte: the next state says as much of the bytes, and FRAME is answered only where they end in a frame. -/
theorem Candidate.dstep_next {s u : State} {xs : List (Byte × Byte)} (h : Candidate s xs u)
    (hrun : execAll (feedOps xs) s = .next u) (hre : u.params.resyncReexamine = false) (l b : Byte) :
    ∃ rc v, dstep b (lengthSet l u) = .ok (rc, v) ∧ Candidate s (xs ++ [(l, b)]) v ∧
      (rc = .frame → EndsInFrame s (xs ++ [(l, b)])) := by
  cases h with
  | none hp =>
    obtain ⟨v, hv, hnext⟩ := Candidate.dstep_of_none hrun hp l b
    exact ⟨_, v, hv, hnext, nofun⟩
  | payload L mid hopened hcollected =>
    obtain ⟨v, hv, hnext⟩ := Candidate.dstep_of_payload hopened hcollected hre l b
    exact ⟨_, v, hv, hnext, nofun⟩
  | ended L l1 mid hopened hlen hp =>
    by_cases hb : b = endMarker2
    · have hends : OpenedBefore s (xs ++ [(l, b)]) L (mid ++ [(l1, endMarker1), (l, endMarker2)]) := by
        simpa [hb] using hopened.snoc (l, b)
      exact ⟨_, _, dstep_eq_ok.mpr (.inr (.inr (.inr (.inl ⟨hp, hb, rfl, rfl⟩)))), .none rfl,
        fun _ => ⟨L, l1, l, mid, hends, hlen⟩⟩
    · refine ⟨_, _, dstep_eq_ok.mpr (.inr (.inr (.inr (.inr ⟨hp, hb, rfl, rfl⟩)))), .none ?_, nofun⟩
      rw [resync_of_discarding (s := lengthSet l u) (.inl hre)]

/-- Any bytes are answered, and the state after them says what they amount to. -/
theorem execAll_feedOps_candidate (xs : List (Byte × Byte)) {s : State} (hs : s.pst = .awaitStart)
    (hre : s.params.resyncReexamine = false) : ∃ u, execAll (feedOps xs) s = .next u ∧ Candidate s xs u := by
  induction xs using List.reverseRecOn with
  | nil => exact ⟨s, rfl, .none hs⟩
  | append_singleton xs x ih =>
    obtain ⟨u, hu, hcandidate⟩ := ih
    have hre' : u.params.resyncReexamine = false := (execAll_sameEnvironment hu).params ▸ hre
    obtain ⟨rc, v, hv, hnext, -⟩ := hcandidate.dstep_next hu hre' x.1 x.2
    exact ⟨_, (execAll_feedOps_append hu).trans (execAll_feedOps_cons hv), hnext.after_respond ..⟩

/-! ## Exact acceptance (R183) -/

theorem responseWord_eq_frame {rc : ResultCode} {data data' : Data}
    (h : responseWord rc data = responseWord .frame data') : rc = .frame := by
  have hcode : rc.code = ResultCode.frame.code := by
    rw [← responseWord_code rc data, h, responseWord_code]
  cases rc with
  | frame => rfl
  | _ => exact absurd hcode (by decide)

/-- R183: bytes that end in a whole frame opened in AWAIT_START are accepted, with that frame's length and payload. -/
theorem accepted_of_wholeFrame {xs pre mid : List (Byte × Byte)} {L l1 l2 : Byte} {s t u : State}
    (hxs : xs = pre ++ (L, startMarker) :: mid ++ [(l1, endMarker1), (l2, endMarker2)]) (hlen : mid.length = L.toNat)
    (hpre : execAll (feedOps pre) s = .next t) (ht : t.pst = .awaitStart) (hu : execAll (feedOps xs) s = .next u) :
    u.responses.getLast? = some (s.port, responseWord .frame (L ++ endMarker2)) ∧
      u.flen = L ∧ u.fv = true ∧ ∀ (k : Nat) (hk : k < mid.length), u.byteAt .rxpay k = (mid[k]).2 := by
  obtain ⟨w, hw, haccepted⟩ := execAll_feedOps_frame l1 l2 ht hlen
  rw [(execAll_sameEnvironment hpre).port] at haccepted
  rw [hxs, List.append_assoc, execAll_feedOps_append hpre, hw] at hu
  cases hu
  exact haccepted

/-- Settles O26: FRAME comes from AWAIT_END2, where the state says that a whole frame was fed but for EM2; and a whole
frame is accepted. -/
theorem exactFrameAcceptance : Obligations.ExactFrameAcceptance := by
  intro xs s hne hs hre
  obtain ⟨ys, ⟨l, b⟩, rfl⟩ := (List.eq_nil_or_concat' xs).resolve_left hne
  obtain ⟨v, hv, hcandidate⟩ := execAll_feedOps_candidate ys hs hre
  have hsame := execAll_sameEnvironment hv
  obtain ⟨rc, w, hw, -, hframe⟩ := hcandidate.dstep_next hv (hsame.params ▸ hre) l b
  have hrun : execAll (feedOps (ys ++ [(l, b)])) s = .next _ :=
    (execAll_feedOps_append hv).trans (execAll_feedOps_cons hw)
  refine ⟨_, hrun,
    ⟨fun ⟨data, hlast⟩ => ?onlyFrames, fun ⟨pre, mid, L, l1, l2, t, hxs, hlen, hpre, ht⟩ => ?everyFrame⟩,
    fun pre mid L l1 l2 t hxs hlen hpre ht => (accepted_of_wholeFrame hxs hlen hpre ht hrun).2⟩
  case onlyFrames =>
    rw [respond_responses, List.getLast?_concat, Option.some.injEq, Prod.mk.injEq] at hlast
    obtain ⟨L, l1, l2, mid, ⟨pre, t, hxs, hpre, ht⟩, hlen⟩ := hframe (responseWord_eq_frame hlast.2)
    exact ⟨pre, mid, L, l1, l2, t, by rw [hxs, List.append_assoc]; rfl, hlen, hpre, ht⟩
  case everyFrame => exact ⟨_, (accepted_of_wholeFrame hxs hlen hpre ht hrun).1⟩

end Sys2Proof.Machine
end

section
/-! PROOFS. The framer and the byte pump (spec/42_framer_tx.md): the operations turned away, and the transmission that
nothing abandons. -/

namespace Sys2Proof.Machine

/-! ## Operations turned away (R212 to R214, R264) -/

theorem exec_build_of_active (n : Byte) {s : State} (hact : s.txAct = true) :
    exec (.build n) s = .next (respond .busy 0 s) :=
  if_pos hact

theorem exec_buildack_of_active {s : State} (hact : s.txAct = true) :
    exec .buildack s = .next (respond .busy 0 s) :=
  if_pos hact

theorem exec_framing_of_active {i : Instr} {s : State} (hi : i = .buildack ∨ ∃ n, i = .build n)
    (hact : s.txAct = true) : exec i s = .next (respond .busy 0 s) := by
  rcases hi with rfl | ⟨n, rfl⟩
  · exact exec_buildack_of_active hact
  · exact exec_build_of_active n hact

theorem exec_txstep_of_idle {s : State} (hidle : s.txAct = false) :
    exec .txstep s = .next (respond .txIdle 0 s) :=
  execTxstep_eq_next.mpr (.inl ⟨hidle, rfl⟩)

theorem exec_txstep_of_not_ready {s : State} (hact : s.txAct = true) (hready : s.txWritable = false) :
    exec .txstep s = .next (respond .txNotReady 0 s) :=
  execTxstep_eq_next.mpr (.inr (.inl ⟨hact, hready, rfl⟩))

/-- Settles O38: the refusal is an answer and nothing else. -/
theorem busyRefusesBuild : Obligations.BusyRefusesBuild := fun _ _ hi hact =>
  ⟨_, exec_framing_of_active hi hact, rfl, sameBlock_respond ..⟩

/-- Settles O40: an idle transmitter is found before the transport is asked, and either way TXSTEP only answers. -/
theorem txstepWithoutSending : Obligations.TxstepWithoutSending := fun _ =>
  ⟨fun hidle => ⟨_, exec_txstep_of_idle hidle, rfl, sameBlock_respond ..⟩,
    fun hact hready => ⟨_, exec_txstep_of_not_ready hact hready, rfl, sameBlock_respond ..⟩⟩

/-! ## The transmission in progress (R217) -/

/-- Only the TXSTEP that sends the last byte ends a transmission. -/
theorem exec_ends_transmission {i : Instr} {s t : State} (hact : s.txAct = true) (h : exec i s = .next t)
    (hidle : t.txAct = false) : i = .txstep ∧ s.txWritable = true ∧ s.txCur + 1 = s.txLen := by
  have hended : t.txAct ≠ s.txAct := by simp [hact, hidle]
  cases exec_cases h with
  | lastByteSent _ _ _ _ hready _ hlast => exact ⟨rfl, hready, hlast⟩
  | answered | byteSent => exact absurd rfl hended
  | frameBuilt _ _ _ hbefore | ackBuilt _ _ hbefore => cases hact.symm.trans hbefore
  | _ => rw [exec_eq_overwrite h] at hended; exact absurd rfl hended

/-- An image is loaded only while no transmission is active. -/
theorem exec_keeps_image_of_active {i : Instr} {s t : State} (hact : s.txAct = true) (h : exec i s = .next t) :
    t.txLen = s.txLen ∧ ∀ k, t.byteAt .txw k = s.byteAt .txw k := by
  cases exec_cases h with
  | answered => exact ⟨rfl, fun _ => rfl⟩
  | frameBuilt _ _ _ hbefore | ackBuilt _ _ hbefore => cases hact.symm.trans hbefore
  | _ => rw [exec_eq_overwrite h]; exact ⟨rfl, fun _ => rfl⟩

/-- Settles O42: the end, the refusal and the image kept, each by its lemma. -/
theorem transmissionNotAbandoned : Obligations.TransmissionNotAbandoned := by
  intro i s t hact h
  refine ⟨exec_ends_transmission hact h, fun hi => ?refused, exec_keeps_image_of_active hact h⟩
  case refused =>
    have hnext : Host.Outcome.next (respond .busy 0 s) = .next t := (exec_framing_of_active hi hact).symm.trans h
    cases hnext
    exact ⟨rfl, sameBlock_respond ..⟩

end Sys2Proof.Machine
end

section
/-! PROOFS. The control operations (spec/43_control.md): NOP. -/

namespace Sys2Proof.Machine

/-- R240: whatever the state, NOP is the answer OK and nothing else. -/
theorem exec_nop (s : State) : exec .nop s = .next (respond .ok 0 s) := rfl

/-- Settles O43: an answer leaves the block as it was. -/
theorem nopOnlyAnswers : Obligations.NopOnlyAnswers := fun s =>
  ⟨respond .ok 0 s, exec_nop s, rfl, sameBlock_respond .ok 0 s⟩

end Sys2Proof.Machine
end

section
/-! PROOFS. The block never stops (spec/60_exceptions.md R260, R277): in a state that meets the registers' invariants
every operation, every event and so every step answers a next state. -/

namespace Sys2Proof.Machine

/-! ## Every operation answers (R260) -/

/-- R242: RDREG answers at every address, assigned or not. -/
theorem exec_rdreg_answers (a : Byte) (s : State) : ∃ t, exec (.rdreg a) s = .next t := by
  simp only [exec, execRdreg]
  cases registerValue a s with
  | none => exact ⟨_, rfl⟩
  | some v => exact ⟨_, rfl⟩

/-- R44, R176: COLLECTING's index is inside RXPAY, so PARSE answers. -/
theorem DeframerInv.exec_parse_answers {s : State} (hs : DeframerInv s) (d : Byte) :
    ∃ t, exec (.parse d) s = .next t := by
  obtain ⟨rc, u, hd⟩ := dstep_answers d s hs.pcount_lt
  exact ⟨_, execParse_eq_next.mpr ⟨rc, u, hd, rfl⟩⟩

/-- U15: the accesses at WRIDX, RDIDX, PCOUNT and TXCUR are inside their spaces by the registers' invariants, and those
of RDPAY, WRPAY, BUILD and BUILDACK by their operands. -/
theorem Inv.exec_answers {s : State} (hs : Inv s) (i : Instr) : ∃ t, exec i s = .next t := by
  obtain ⟨hfifo, -, hdeframer, htransmit⟩ := hs
  cases i with
  | nop | detach | rearm | setlen => exact ⟨_, rfl⟩
  | push d =>
    obtain ⟨t, ht, -⟩ := exec_push_answers d hfifo
    exact ⟨t, ht⟩
  | pop | parsef | packf => exact exec_removing_answers rfl hfifo hdeframer
  | parse d => exact hdeframer.exec_parse_answers d
  | pack d => exact ⟨_, execPack_eq d s⟩
  | wrpay a d => exact ⟨_, execWrpay_eq a d s⟩
  | rdpay a => exact ⟨_, execRdpay_eq a s⟩
  | build n =>
    obtain ⟨t, ht, -⟩ := execBuild_answers n s
    exact ⟨t, ht⟩
  | buildack =>
    obtain ⟨t, ht, -⟩ := execBuildack_answers s
    exact ⟨t, ht⟩
  | txstep =>
    obtain ⟨t, ht, -⟩ := exec_txstep_sentBytes htransmit
    exact ⟨t, ht⟩
  | rdreg a => exact exec_rdreg_answers a s

/-! ## Every event and every step answers (R277) -/

/-- The registers' invariants do not speak of the environment. -/
theorem Inv.envChange {s t : State} (hs : Inv s) (h : EnvChange s t) : Inv t := by
  unfold EnvChange at h
  rw [h]
  exact hs

/-- R115, R241: a word that is illegal on its port is answered ILLEGAL and nothing else. -/
theorem issueWord_of_decode_error {p : Port} {w : Word} {e : DecodeError} (h : decode p w = .error e) (s : State) :
    issueWord p w s = .next (respond .illegal 0 { s with port := p }) := by
  simp only [issueWord, h, illegalWord]

/-- R115, R241: a word on a port is answered, legal there or not. -/
theorem Inv.issueWord_answers {s : State} (hs : Inv s) (p : Port) (w : Word) : ∃ t, issueWord p w s = .next t := by
  cases hdecode : decode p w with
  | ok i =>
    have hissued : EnvChange s { s with port := p } := rfl
    rw [issueWord_of_decode_ok hdecode]
    exact (hs.envChange hissued).exec_answers i
  | error e => exact ⟨_, issueWord_of_decode_error hdecode s⟩

/-- R150: RXFE's turn is a PUSH, a DETACH or no step at all. -/
theorem Inv.rxfeTurn_answers {s : State} (hs : Inv s) : ∃ t, performEvent .rxfeTurn s = .next t := by
  cases harmed : s.armed with
  | false => exact ⟨s, rxfeTurn_of_detached harmed⟩
  | true =>
    cases hbytes : s.rxBytes with
    | cons b rest =>
      have htaken : EnvChange s { s with port := .rx, rxBytes := rest } := rfl
      rw [rxfeTurn_takes harmed hbytes]
      exact (hs.envChange htaken).exec_answers (.push b)
    | nil =>
      cases hinb : s.inb with
      | false => exact ⟨s, rxfeTurn_waits hinb hbytes⟩
      | true => exact ⟨_, rxfeTurn_ends harmed hinb hbytes⟩

theorem Inv.performEvent_answers {s : State} (hs : Inv s) (e : Event) : ∃ t, performEvent e s = .next t := by
  cases e with
  | cmdWord w writable =>
    have hready : EnvChange s { s with txWritable := writable } := rfl
    exact (hs.envChange hready).issueWord_answers .cmd w
  | rxWord w => exact hs.issueWord_answers .rx w
  | rxfeTurn => exact hs.rxfeTurn_answers
  | arrive b lost => exact ⟨byteArrives b lost s, rfl⟩
  | reset => exact ⟨resetBlock s, rfl⟩

/-- Settles O56: a step waits or performs the oldest event, and every event answers. -/
theorem noStepFaults : Obligations.NoStepFaults := by
  intro s hs
  cases hevents : s.events with
  | nil => exact ⟨s, step_of_events_nil hevents⟩
  | cons e es =>
    rw [step_of_events_cons hevents]
    exact (hs.envChange (envChange_events s es)).performEvent_answers e

end Sys2Proof.Machine
end

section
/-! PROOFS. The reset input (spec/70_reset_and_hazards.md R290 to R292). -/

namespace Sys2Proof.Machine

/-- R291: the reset input is always taken, whatever was in progress. -/
theorem performEvent_reset (s : State) : performEvent .reset s = .next (resetBlock s) := rfl

theorem resetBlock_space (s : State) (sp : Space) : (resetBlock s).space sp = [] := by cases sp <;> rfl

/-- R290, U1: nothing is written yet, so that every entry holds the byte drawn for this reset. -/
theorem resetBlock_byteAt (s : State) (sp : Space) (i : Nat) :
    (resetBlock s).byteAt sp i = Config.drawnByte (s.drawEpoch + 1) sp i := by
  have hunwritten : ((resetBlock s).space sp).read? i = none := by rw [resetBlock_space]; rfl
  rw [State.byteAt, hunwritten, Option.getD_none]; rfl

/-- R53: each flag that STATUS shows is 0. -/
theorem statusView_resetBlock (s : State) : statusView (resetBlock s) = 0 := (statusView_eq _).trans rfl

/-- R54: AWAIT_START and A_START both have the code 0. -/
theorem pstateView_resetBlock (s : State) : pstateView (resetBlock s) = 0 := (pstateView_eq _).trans rfl

/-- Settles O47: the reset input answers `resetBlock`, which takes the registers from the reset state and the environment
and the outputs from the state before. -/
theorem resetEventRestores : Obligations.ResetEventRestores := fun s =>
  ⟨resetBlock s, performEvent_reset s, rfl, rfl, rfl, rfl, rfl, rfl, rfl, rfl, rfl, rfl, rfl, rfl, rfl, rfl, rfl,
    statusView_resetBlock s, pstateView_resetBlock s, resetBlock_byteAt s, rfl, rfl, rfl, rfl, rfl⟩

end Sys2Proof.Machine
end
